-- ==== Sys2Proof/Word.lean ====
section
/-!
DEFINITION. The words of the machine (spec/00_scope.md rule R6: every value is unsigned; bit 0 is
the least significant bit).
-/

namespace Sys2Proof

/-- A byte: general registers, timers and memory cells (rules R11, R19, R21). -/
abbrev Byte := BitVec 8

/-- A 16-bit word: `I`, `pc`, a stack entry, the instruction word (rules R13, R14, R16, R60). -/
abbrev Word := BitVec 16

/-- A 12-bit address operand `NNN` (rule R61). -/
abbrev Addr := BitVec 12

/-- A 4-bit field of the instruction word: `N`, or the number of a register (rule R61). -/
abbrev Nibble := BitVec 4

/-- The number of a general register, `V0` to `VF` (rule R11). -/
abbrev Reg := BitVec 4

end Sys2Proof
end

