-- ==== Sys2Proof/Config.lean ====
section
/-!
DEFINITION. What the platform fixes and what the spec leaves open (spec/00_scope.md rules R4, R5).
An `opaque` constant has no body: nothing can be proved of its value, so a theorem that mentions
it holds for every value.
-/

namespace Sys2Proof

/-- `MEM_SIZE` (rule R4). -/
def Config.memSize : Nat := 4096

/-- `LOAD_OFFSET` (rule R4). -/
def Config.loadOffset : Nat := 512

/-- `MAX_IMAGE` (rule R4). -/
def Config.maxImage : Nat := 3584

/-- `EXT_OPS` (rules R5, R140): the spec's choice is `true`. `decodeWith`, `cycleWith` take either
value. UNVERIFIED (log entry 3), unsafe. -/
def Config.extOps : Bool := true

/-- `FONT_BASE` (rules R5, R147): a 12-bit address the platform picks; left open.
DESIGN CHOICE (log entry 2), safe. -/
opaque Config.fontBase : Addr

/-- `rand` (rules R5, R130): the byte drawn by the `n`-th `RND`; a free draw.
DESIGN CHOICE (log entry 1), safe. -/
opaque Config.rand : Nat → Byte

/-- Bytes a faulting instruction may leave behind (rule R155: unspecified).
DESIGN CHOICE (log entry 5), safe. -/
opaque Config.leftoverByte : Nat → Byte

/-- The `kwait` bit an execute-stage fault leaves behind (rule R155: unspecified).
DESIGN CHOICE (log entry 5), safe. -/
opaque Config.leftoverBit : Nat → Bool

end Sys2Proof
end

