-- ==== Sys2Proof/Syntax.lean ====
section
/-!
DEFINITION. The instructions: one constructor per row of spec/opcode_table.json (spec/30_encoding.md
rule R64). Operands are the fields of rule R61 an instruction uses; the bits it ignores (rules R62,
R69, R108, R110) are not part of it.
-/

namespace Sys2Proof

/-- An instruction of rule R64's map. -/
inductive Instr where
  /-- `00E0` CLS: clear screen (R131). -/
  | cls
  /-- `00EE` RET: return (R90). -/
  | ret
  /-- `1NNN` JP NNN: jump (R91). -/
  | jp (nnn : Addr)
  /-- `2NNN` CALL NNN: call (R92). -/
  | call (nnn : Addr)
  /-- `3XNN` SE VX,NN: skip if equal (R93). -/
  | seImm (x : Reg) (nn : Byte)
  /-- `4XNN` SNE VX,NN: skip if not equal (R94). -/
  | sneImm (x : Reg) (nn : Byte)
  /-- `5XY0` SE VX,VY: skip if registers equal (R95). -/
  | seReg (x y : Reg)
  /-- `6XNN` LD VX,NN: load immediate (R100). -/
  | ldImm (x : Reg) (nn : Byte)
  /-- `7XNN` ADD VX,NN: add immediate, no flag (R101). -/
  | addImm (x : Reg) (nn : Byte)
  /-- `8XY0` LD VX,VY: move (R102). -/
  | ldReg (x y : Reg)
  /-- `8XY1` OR VX,VY (R103). -/
  | orReg (x y : Reg)
  /-- `8XY2` AND VX,VY (R104). -/
  | andReg (x y : Reg)
  /-- `8XY3` XOR VX,VY (R105). -/
  | xorReg (x y : Reg)
  /-- `8XY4` ADD VX,VY: add with carry out (R106). -/
  | addReg (x y : Reg)
  /-- `8XY5` SUB VX,VY (R107). -/
  | sub (x y : Reg)
  /-- `8XY6` SHR VX: shift right by one (R108). -/
  | shr (x : Reg)
  /-- `8XY7` SUBN VX,VY: reverse subtract (R109). -/
  | subn (x y : Reg)
  /-- `8XYE` SHL VX: shift left by one (R110). -/
  | shl (x : Reg)
  /-- `9XY0` SNE VX,VY: skip if registers differ (R96). -/
  | sneReg (x y : Reg)
  /-- `ANNN` LD I,NNN: set index (R120). -/
  | ldI (nnn : Addr)
  /-- `BNNN` JP V0,NNN: jump with offset (R97). -/
  | jpV0 (nnn : Addr)
  /-- `CXNN` RND VX,NN: random byte under mask (R130). -/
  | rnd (x : Reg) (nn : Byte)
  /-- `DXYN` DRW VX,VY,N: draw sprite (R132). -/
  | drw (x y : Reg) (n : Nibble)
  /-- `EX9E` SKP VX: skip if key pressed (R141). -/
  | skp (x : Reg)
  /-- `EXA1` SKNP VX: skip if key not pressed (R142). -/
  | sknp (x : Reg)
  /-- `FX07` LD VX,DT: read delay timer (R143). -/
  | ldVxDt (x : Reg)
  /-- `FX0A` LD VX,K: wait for a key (R144). -/
  | ldVxK (x : Reg)
  /-- `FX15` LD DT,VX: set delay timer (R145). -/
  | ldDtVx (x : Reg)
  /-- `FX18` LD ST,VX: set sound timer (R146). -/
  | ldStVx (x : Reg)
  /-- `FX1E` ADD I,VX: add to index (R121). -/
  | addI (x : Reg)
  /-- `FX29` LD F,VX: point index at a font glyph (R147). -/
  | ldF (x : Reg)
  /-- `FX33` LD B,VX: store decimal digits (R122). -/
  | ldB (x : Reg)
  /-- `FX55` LD [I],VX: register dump (R123). -/
  | ldMemVx (x : Reg)
  /-- `FX65` LD VX,[I]: register load (R124). -/
  | ldVxMem (x : Reg)
  /-- `NOP*`: the unrecognised word `w` (R87, R70). -/
  | nop (w : Word)
  deriving DecidableEq, Repr

end Sys2Proof
end

