-- ==== Sys2Proof/Decode.lean ====
section
/-!
DEFINITION. Decoding and encoding (spec/30_encoding.md rules R60 to R70). The decoder follows the
prose of rule R63 (family, then secondary selector); `opcodeMap` is rule R64's table of masks and
matches, kept beside it as the second reading of the same map. The opcode numbers rest on the
spec's decision D2: UNVERIFIED (log entry 14), unsafe.
-/

namespace Sys2Proof

/-! ### Fields (rule R61) -/

/-- `op = w[15:12]`, the family. -/
def opOf (w : Word) : Nibble := w.extractLsb' 12 4
/-- `X = w[11:8]`. -/
def xOf (w : Word) : Reg := w.extractLsb' 8 4
/-- `Y = w[7:4]`. -/
def yOf (w : Word) : Reg := w.extractLsb' 4 4
/-- `N = w[3:0]`. -/
def nOf (w : Word) : Nibble := w.extractLsb' 0 4
/-- `NN = w[7:0]`. -/
def nnOf (w : Word) : Byte := w.extractLsb' 0 8
/-- `NNN = w[11:0]`. -/
def nnnOf (w : Word) : Addr := w.extractLsb' 0 12

/-! ### The decoder (rules R63 to R70) -/

/-- Family 0x0: the selector is all of `NNN` (rule R65). -/
def decode0 (w : Word) : Instr :=
  match (nnnOf w).toNat with
  | 0x0E0 => .cls
  | 0x0EE => .ret
  | _ => .nop w

/-- Family 0x8: the selector is `N` (rule R66). -/
def decode8 (w : Word) : Instr :=
  match (nOf w).toNat with
  | 0x0 => .ldReg (xOf w) (yOf w)
  | 0x1 => .orReg (xOf w) (yOf w)
  | 0x2 => .andReg (xOf w) (yOf w)
  | 0x3 => .xorReg (xOf w) (yOf w)
  | 0x4 => .addReg (xOf w) (yOf w)
  | 0x5 => .sub (xOf w) (yOf w)
  | 0x6 => .shr (xOf w)
  | 0x7 => .subn (xOf w) (yOf w)
  | 0xE => .shl (xOf w)
  | _ => .nop w

/-- Family 0xE: the selector is `NN` (rule R67); empty when `EXT_OPS` is false. -/
def decodeE (ext : Bool) (w : Word) : Instr :=
  match (nnOf w).toNat with
  | 0x9E => if ext then .skp (xOf w) else .nop w
  | 0xA1 => if ext then .sknp (xOf w) else .nop w
  | _ => .nop w

/-- Family 0xF: the selector is `NN` (rule R68). -/
def decodeF (ext : Bool) (w : Word) : Instr :=
  match (nnOf w).toNat with
  | 0x07 => if ext then .ldVxDt (xOf w) else .nop w
  | 0x0A => if ext then .ldVxK (xOf w) else .nop w
  | 0x15 => if ext then .ldDtVx (xOf w) else .nop w
  | 0x18 => if ext then .ldStVx (xOf w) else .nop w
  | 0x1E => .addI (xOf w)
  | 0x29 => if ext then .ldF (xOf w) else .nop w
  | 0x33 => .ldB (xOf w)
  | 0x55 => .ldMemVx (xOf w)
  | 0x65 => .ldVxMem (xOf w)
  | _ => .nop w

/-- The decoder, total (rule R63), for either value of `EXT_OPS` (rule R140). -/
def decodeWith (ext : Bool) (w : Word) : Instr :=
  match (opOf w).toNat with
  | 0x0 => decode0 w
  | 0x1 => .jp (nnnOf w)
  | 0x2 => .call (nnnOf w)
  | 0x3 => .seImm (xOf w) (nnOf w)
  | 0x4 => .sneImm (xOf w) (nnOf w)
  | 0x5 => .seReg (xOf w) (yOf w)
  | 0x6 => .ldImm (xOf w) (nnOf w)
  | 0x7 => .addImm (xOf w) (nnOf w)
  | 0x8 => decode8 w
  | 0x9 => .sneReg (xOf w) (yOf w)
  | 0xA => .ldI (nnnOf w)
  | 0xB => .jpV0 (nnnOf w)
  | 0xC => .rnd (xOf w) (nnOf w)
  | 0xD => .drw (xOf w) (yOf w) (nOf w)
  | 0xE => decodeE ext w
  | _ => decodeF ext w

/-- The decoder of this machine: `EXT_OPS` as the platform fixes it. -/
def decode (w : Word) : Instr := decodeWith Config.extOps w

/-- Why bytes give no instruction. The only reason: fewer than two bytes (rule R60). No word is
rejected (rule R63). -/
inductive DecodeReject where
  | truncated
  deriving DecidableEq, Repr

/-- The big-endian word of two bytes, the first at the lower address (rule R43). -/
def wordOfBytes (hi lo : Byte) : Word := hi ++ lo

/-- The first byte of a word, at the lower address (rule R43). -/
def hiByte (w : Word) : Byte := w.extractLsb' 8 8

/-- The second byte of a word (rule R43). -/
def loByte (w : Word) : Byte := w.extractLsb' 0 8

/-- Decode the instruction at the front of a byte sequence and return the rest. -/
def decodeBytes : List Byte → Except DecodeReject (Instr × List Byte)
  | hi :: lo :: rest => .ok (decode (wordOfBytes hi lo), rest)
  | [_] => .error .truncated
  | [] => .error .truncated

/-! ### The encoder (rule R64; ignored bits are 0, rule R72) -/

/-- The word of an instruction. -/
def encode : Instr → Word
  | .cls => 0x00E0#16
  | .ret => 0x00EE#16
  | .jp nnn => 0x1#4 ++ nnn
  | .call nnn => 0x2#4 ++ nnn
  | .seImm x nn => 0x3#4 ++ x ++ nn
  | .sneImm x nn => 0x4#4 ++ x ++ nn
  | .seReg x y => 0x5#4 ++ x ++ y ++ 0x0#4
  | .ldImm x nn => 0x6#4 ++ x ++ nn
  | .addImm x nn => 0x7#4 ++ x ++ nn
  | .ldReg x y => 0x8#4 ++ x ++ y ++ 0x0#4
  | .orReg x y => 0x8#4 ++ x ++ y ++ 0x1#4
  | .andReg x y => 0x8#4 ++ x ++ y ++ 0x2#4
  | .xorReg x y => 0x8#4 ++ x ++ y ++ 0x3#4
  | .addReg x y => 0x8#4 ++ x ++ y ++ 0x4#4
  | .sub x y => 0x8#4 ++ x ++ y ++ 0x5#4
  | .shr x => 0x8#4 ++ x ++ 0x0#4 ++ 0x6#4
  | .subn x y => 0x8#4 ++ x ++ y ++ 0x7#4
  | .shl x => 0x8#4 ++ x ++ 0x0#4 ++ 0xE#4
  | .sneReg x y => 0x9#4 ++ x ++ y ++ 0x0#4
  | .ldI nnn => 0xA#4 ++ nnn
  | .jpV0 nnn => 0xB#4 ++ nnn
  | .rnd x nn => 0xC#4 ++ x ++ nn
  | .drw x y n => 0xD#4 ++ x ++ y ++ n
  | .skp x => 0xE#4 ++ x ++ 0x9E#8
  | .sknp x => 0xE#4 ++ x ++ 0xA1#8
  | .ldVxDt x => 0xF#4 ++ x ++ 0x07#8
  | .ldVxK x => 0xF#4 ++ x ++ 0x0A#8
  | .ldDtVx x => 0xF#4 ++ x ++ 0x15#8
  | .ldStVx x => 0xF#4 ++ x ++ 0x18#8
  | .addI x => 0xF#4 ++ x ++ 0x1E#8
  | .ldF x => 0xF#4 ++ x ++ 0x29#8
  | .ldB x => 0xF#4 ++ x ++ 0x33#8
  | .ldMemVx x => 0xF#4 ++ x ++ 0x55#8
  | .ldVxMem x => 0xF#4 ++ x ++ 0x65#8
  | .nop w => w

/-- The two bytes of an instruction, in memory order. -/
def encodeBytes (i : Instr) : List Byte := [hiByte (encode i), loByte (encode i)]

/-! ### The opcode map as a table (rule R64) -/

/-- One row of rule R64: `w` selects it iff `w &&& mask = value`; `ext` marks the seven rows that
exist only when `EXT_OPS` (rule R140). -/
structure OpcodeRow where
  mask : Word
  value : Word
  ext : Bool
  make : Word → Instr

/-- The families 0x0 to 0x7 of rule R64. -/
def opcodeMapLow : List OpcodeRow := [
  ⟨0xFFFF#16, 0x00E0#16, false, fun _ => .cls⟩,
  ⟨0xFFFF#16, 0x00EE#16, false, fun _ => .ret⟩,
  ⟨0xF000#16, 0x1000#16, false, fun w => .jp (nnnOf w)⟩,
  ⟨0xF000#16, 0x2000#16, false, fun w => .call (nnnOf w)⟩,
  ⟨0xF000#16, 0x3000#16, false, fun w => .seImm (xOf w) (nnOf w)⟩,
  ⟨0xF000#16, 0x4000#16, false, fun w => .sneImm (xOf w) (nnOf w)⟩,
  ⟨0xF000#16, 0x5000#16, false, fun w => .seReg (xOf w) (yOf w)⟩,
  ⟨0xF000#16, 0x6000#16, false, fun w => .ldImm (xOf w) (nnOf w)⟩,
  ⟨0xF000#16, 0x7000#16, false, fun w => .addImm (xOf w) (nnOf w)⟩]

/-- Family 0x8 of rule R64. -/
def opcodeMapAlu : List OpcodeRow := [
  ⟨0xF00F#16, 0x8000#16, false, fun w => .ldReg (xOf w) (yOf w)⟩,
  ⟨0xF00F#16, 0x8001#16, false, fun w => .orReg (xOf w) (yOf w)⟩,
  ⟨0xF00F#16, 0x8002#16, false, fun w => .andReg (xOf w) (yOf w)⟩,
  ⟨0xF00F#16, 0x8003#16, false, fun w => .xorReg (xOf w) (yOf w)⟩,
  ⟨0xF00F#16, 0x8004#16, false, fun w => .addReg (xOf w) (yOf w)⟩,
  ⟨0xF00F#16, 0x8005#16, false, fun w => .sub (xOf w) (yOf w)⟩,
  ⟨0xF00F#16, 0x8006#16, false, fun w => .shr (xOf w)⟩,
  ⟨0xF00F#16, 0x8007#16, false, fun w => .subn (xOf w) (yOf w)⟩,
  ⟨0xF00F#16, 0x800E#16, false, fun w => .shl (xOf w)⟩]

/-- The families 0x9 to 0xE of rule R64. -/
def opcodeMapHigh : List OpcodeRow := [
  ⟨0xF000#16, 0x9000#16, false, fun w => .sneReg (xOf w) (yOf w)⟩,
  ⟨0xF000#16, 0xA000#16, false, fun w => .ldI (nnnOf w)⟩,
  ⟨0xF000#16, 0xB000#16, false, fun w => .jpV0 (nnnOf w)⟩,
  ⟨0xF000#16, 0xC000#16, false, fun w => .rnd (xOf w) (nnOf w)⟩,
  ⟨0xF000#16, 0xD000#16, false, fun w => .drw (xOf w) (yOf w) (nOf w)⟩,
  ⟨0xF0FF#16, 0xE09E#16, true, fun w => .skp (xOf w)⟩,
  ⟨0xF0FF#16, 0xE0A1#16, true, fun w => .sknp (xOf w)⟩]

/-- Family 0xF of rule R64. -/
def opcodeMapMisc : List OpcodeRow := [
  ⟨0xF0FF#16, 0xF007#16, true, fun w => .ldVxDt (xOf w)⟩,
  ⟨0xF0FF#16, 0xF00A#16, true, fun w => .ldVxK (xOf w)⟩,
  ⟨0xF0FF#16, 0xF015#16, true, fun w => .ldDtVx (xOf w)⟩,
  ⟨0xF0FF#16, 0xF018#16, true, fun w => .ldStVx (xOf w)⟩,
  ⟨0xF0FF#16, 0xF01E#16, false, fun w => .addI (xOf w)⟩,
  ⟨0xF0FF#16, 0xF029#16, true, fun w => .ldF (xOf w)⟩,
  ⟨0xF0FF#16, 0xF033#16, false, fun w => .ldB (xOf w)⟩,
  ⟨0xF0FF#16, 0xF055#16, false, fun w => .ldMemVx (xOf w)⟩,
  ⟨0xF0FF#16, 0xF065#16, false, fun w => .ldVxMem (xOf w)⟩]

/-- The 34 rows of rule R64; its last row, `NOP*`, is what matches none of them. -/
def opcodeMap : List OpcodeRow := opcodeMapLow ++ opcodeMapAlu ++ opcodeMapHigh ++ opcodeMapMisc

/-- `w` selects the row (rule R64), in the machine with this `EXT_OPS` (rule R140). -/
def OpcodeRow.selects (ext : Bool) (r : OpcodeRow) (w : Word) : Bool :=
  (ext || !r.ext) && (w &&& r.mask == r.value)

/-- `w` is an instruction other than `NOP*`, that is, it selects some row. -/
def recognisedWith (ext : Bool) (w : Word) : Bool := opcodeMap.any (·.selects ext w)

/-! ### The host's view of one instruction -/

/-- The first word of an instruction whose table bits are `w` and number `nbits` (every bit above
them is 0). -/
def tableWord (nbits w : Nat) : Word := BitVec.ofNat 16 (w % 2 ^ nbits)

/-- What the decoder reads from an instruction whose bits are `w`, laid out in memory order. -/
def decodeTableWord (nbits w : Nat) : Option Instr :=
  match decodeBytes [hiByte (tableWord nbits w), loByte (tableWord nbits w)] with
  | .ok (i, _) => some i
  | .error _ => none

end Sys2Proof
end

