-- ==== Sys2Proof/Machine/State.lean ====
section
/-!
DEFINITION. The state of the core (spec/10_state.md rule R10), the reasons a step stops, and the
state right after reset (rule R27). Plain data, no function-typed field.
-/

namespace Sys2Proof.Machine

/-- The three fault kinds (spec/60_exceptions.md rules R150, R154), each also a value of the
`fault` latch. All are the spec's own and precise in kind; a stop under one of them is safe. -/
inductive Fault where
  /-- Code 1. Raised by a fetch, DRW, LD B, LD [I], LD VX,[I] on an address at or above 4096 and by
  SKP, SKNP on a key number at or above 16 (rules R150, R151, R148). Safe: the spec stops here. -/
  | addressOutOfRange
  /-- Code 2. Raised by CALL when the stack holds 16 entries (rules R150, R152). Safe: the spec
  stops here. -/
  | stackOverflow
  /-- Code 3. Raised by RET when the stack is empty (rules R150, R153). Safe: the spec stops here. -/
  | stackUnderflow
  deriving DecidableEq, Repr

/-- Why the model gives no meaning. No step ends in one: the decoder is total (rule R63) and every
instruction has its meaning. -/
inductive Refusal where
  /-- An arm of `exec` without a meaning; raised by no arm. Safe. -/
  | notModelled (mnemonic : String)
  /-- `load` after a cycle has run, which the spec refuses (spec/70_reset_and_hazards.md rule R183).
  Raised by the host operation `loadImage` only, never by a step. Safe. -/
  | loadAfterCycle
  deriving DecidableEq, Repr

/-- `mem`: the bytes that are not 0, in rising order of address (rule R19). An unlisted address
below 4096 reads as 0, its value after reset (rule R27). -/
abbrev Memory := List Host.Cell

/-- The framebuffer: 32 rows of 64 cells, row 0 at the top, column 0 leftmost (rule R20). -/
abbrev Framebuffer := Vector (Vector Bool 64) 32

/-- The complete state (rule R10). -/
structure State where
  /-- `V[0]` to `V[15]` (R11); `V[15]` is the flag register `VF` (R12). -/
  v : Vector Byte 16
  /-- `I`, the index register (R13). -/
  index : Word
  /-- `pc`, the program counter (R14). -/
  pc : Word
  /-- `stack[0]` to `stack[15]` (R16). -/
  stack : Vector Word 16
  /-- `sp`, the number of live stack entries, 0 to 16 (R16). -/
  sp : Fin 17
  /-- `mem` (R19). -/
  mem : Memory
  /-- `fb`, the framebuffer (R20). -/
  fb : Framebuffer
  /-- `DT`, the delay timer (R21). -/
  dt : Byte
  /-- `ST`, the sound timer (R21). -/
  st : Byte
  /-- `key[0]` to `key[15]`, the keypad latch (R22). -/
  key : Vector Bool 16
  /-- `kwait`, the keypad-wait status (R23). -/
  kwait : Bool
  /-- `fault`, the fault latch (R24). -/
  fault : Option Fault
  /-- `started`: a cycle has run since reset (R29). -/
  started : Bool
  /-- THE MODEL'S OWN: how many free values have been drawn (log entries 1 and 8). -/
  draws : Nat
  deriving DecidableEq, Repr

/-- The state after reset (rules R27, R180): everything 0, `pc` at the load offset, no fault.
`draws` is the model's own: DESIGN CHOICE 0 (log entry 8), unsafe only for a claim about its
value. -/
def State.reset : State where
  v := Vector.replicate 16 0#8
  index := 0#16
  pc := 512#16
  stack := Vector.replicate 16 0#16
  sp := 0
  mem := []
  fb := Vector.replicate 32 (Vector.replicate 64 false)
  dt := 0#8
  st := 0#8
  key := Vector.replicate 16 false
  kwait := false
  fault := none
  started := false
  draws := 0

end Sys2Proof.Machine
end

