-- ==== Sys2Proof/Machine/Ops.lean ====
section
/-!
DEFINITION. The named operations over registers, memory, call stack, framebuffer and keypad, and the
raising of a fault (spec/00_scope.md rule R7, spec/10_state.md, spec/20_memory.md,
spec/60_exceptions.md rule R155). Every index is checked against its fixed extent, and nothing is
wrapped or clamped (rule R48).
-/

namespace Sys2Proof.Machine

/-- The outcome of a meaning and of a step. -/
abbrev Result := Host.Outcome State Fault Refusal

/-! ### Faults (rules R150 to R156) -/

/-- Raising a fault, the one way a cycle fails (rule R155): the cycle answers `Fault(K)` and the
faulted state has no successor. There is no vector, handler, saved `pc` or mode, and no return from
a fault (rule R156); the latch that the same event sets is `latchFault`, applied by the host
operation `invokeStep` (log entry 4). -/
def raise (f : Fault) : Result := .fault f

/-- `fault <- K` (rules R24, R155). -/
def State.latchFault (s : State) (f : Fault) : State := { s with fault := some f }

/-- Go on with the value of a checked access, or raise its fault. -/
def bindFault {α : Type} (r : Except Fault α) (k : α → Result) : Result :=
  match r with
  | .ok a => k a
  | .error f => raise f

/-! ### Registers (rules R11, R13, R14, R21, R23) -/

/-- `V[r]`. -/
def State.getV (s : State) (r : Reg) : Byte := s.v[r.toNat]'r.isLt

/-- `V[r] <- b`. -/
def State.setV (s : State) (r : Reg) (b : Byte) : State := { s with v := s.v.set r.toNat b r.isLt }

/-- `VF`, register 15 (rule R12). -/
def flagReg : Reg := 0xF#4

/-- `I <- w`. -/
def State.setIndex (s : State) (w : Word) : State := { s with index := w }

/-- `pc <- w`. -/
def State.setPc (s : State) (w : Word) : State := { s with pc := w }

/-- `DT <- b`. -/
def State.setDt (s : State) (b : Byte) : State := { s with dt := b }

/-- `ST <- b`. -/
def State.setSt (s : State) (b : Byte) : State := { s with st := b }

/-- `kwait <- b` (rule R23). -/
def State.setKwait (s : State) (b : Bool) : State := { s with kwait := b }

/-- `started <- 1` (rule R29). -/
def State.setStarted (s : State) : State := { s with started := true }

/-- `n` more free values have been drawn (log entries 1, 5 and 8). -/
def State.advanceDraws (s : State) (n : Nat) : State := { s with draws := s.draws + n }

/-! ### Memory (rules R19, R41 to R43) -/

/-- The byte at an address; an unlisted address reads as 0. -/
def Memory.read : Memory → Nat → Byte
  | [], _ => 0#8
  | (k, b) :: m, a => if a = k then b else Memory.read m a

/-- Put a byte in front, unless it is the value an unlisted address reads as. -/
def Memory.put (a : Nat) (b : Byte) (m : Memory) : Memory := if b = 0#8 then m else (a, b) :: m

/-- Write one byte and keep the canonical form. -/
def Memory.write : Memory → Nat → Byte → Memory
  | [], a, b => Memory.put a b []
  | (k, c) :: m, a, b =>
    if a < k then Memory.put a b ((k, c) :: m)
    else if a = k then Memory.put a b m
    else (k, c) :: Memory.write m a b

/-- Every listed address is at least `lo`. -/
def Memory.above (lo : Nat) (m : Memory) : Bool := m.all fun c => decide (lo ≤ c.1)

/-- The canonical form: addresses strictly rising and below 4096, no listed byte 0. -/
def Memory.wf : Memory → Bool
  | [] => true
  | (k, b) :: m => decide (k < Config.memSize) && decide (b ≠ 0#8) && Memory.above (k + 1) m && Memory.wf m

/-- Copy bytes to ascending addresses. -/
def Memory.writeList : Memory → Nat → List Byte → Memory
  | m, _, [] => m
  | m, a, b :: bs => Memory.writeList (Memory.write m a b) (a + 1) bs

/-- The whole of `mem` replaced. -/
def State.setMem (s : State) (m : Memory) : State := { s with mem := m }

/-- `MemRead(a, 1)` (rule R41). -/
def memReadByte (s : State) (a : Nat) : Except Fault Byte :=
  if a < Config.memSize then .ok (s.mem.read a) else .error .addressOutOfRange

/-- `MemRead(a, 2)`, big-endian (rules R41, R43). -/
def memReadWord (s : State) (a : Nat) : Except Fault Word :=
  if a + 1 < Config.memSize then .ok (wordOfBytes (s.mem.read a) (s.mem.read (a + 1)))
  else .error .addressOutOfRange

/-- `MemRead(a, n)`, `n ≥ 1`, the list of the bytes at ascending addresses (rule R41). -/
def memReadBytes (s : State) (a n : Nat) : Except Fault (List Byte) :=
  if a + n ≤ Config.memSize then .ok ((List.range n).map fun k => s.mem.read (a + k))
  else .error .addressOutOfRange

/-- `MemWrite(a, 1, b)` (rule R42). -/
def memWriteByte (s : State) (a : Nat) (b : Byte) : Except Fault State :=
  if a < Config.memSize then .ok (s.setMem (s.mem.write a b)) else .error .addressOutOfRange

/-- A sequence of `MemWrite`s at ascending addresses (rule R42). -/
def memWriteBytes (s : State) (a : Nat) : List Byte → Except Fault State
  | [] => .ok s
  | b :: bs =>
    match memWriteByte s a b with
    | .ok t => memWriteBytes t (a + 1) bs
    | .error f => .error f

/-! ### Call stack (rules R16 to R18) -/

/-- `push(w)` (rule R17). -/
def push (s : State) (w : Word) : Except Fault State :=
  if h : s.sp.val < 16 then
    .ok { s with stack := s.stack.set s.sp.val w h, sp := ⟨s.sp.val + 1, Nat.succ_lt_succ h⟩ }
  else .error .stackOverflow

/-- `pop()` (rule R18): the state with `sp` lowered, and the newest entry. -/
def pop (s : State) : Except Fault (State × Word) :=
  if 0 < s.sp.val then
    .ok ({ s with sp := ⟨s.sp.val - 1, Nat.lt_of_le_of_lt (Nat.sub_le _ _) s.sp.isLt⟩ },
      s.stack[s.sp.val - 1]'(by omega))
  else .error .stackUnderflow

/-! ### Framebuffer (rule R20) -/

/-- `fb[y][x]`; a place outside the grid holds no pixel. -/
def State.pixel (s : State) (y x : Nat) : Bool :=
  if h : y < 32 ∧ x < 64 then (s.fb[y]'h.1)[x]'h.2 else false

/-- `fb[y][x] <- fb[y][x] ^ 1`; a place outside the grid is left alone. -/
def State.togglePixel (s : State) (y x : Nat) : State :=
  if h : y < 32 ∧ x < 64 then
    { s with fb := s.fb.set y ((s.fb[y]'h.1).set x (!((s.fb[y]'h.1)[x]'h.2)) h.2) h.1 }
  else s

/-- Every cell 0. -/
def State.clearFb (s : State) : State :=
  { s with fb := Vector.replicate 32 (Vector.replicate 64 false) }

/-! ### Keypad (rule R22) -/

/-- `key[k] = 1`; there is no key at or above 16. -/
def State.keyDown (s : State) (k : Nat) : Bool := if h : k < 16 then s.key[k]'h else false

/-! ### Fetch and the fixed part of a cycle (rules R80 to R82) -/

/-- Fetch (rule R81). -/
def fetch (s : State) : Except Fault Word := memReadWord s s.pc.toNat

/-- What a cycle does between a successful fetch and execute: `started <- 1`, advance `pc` by 2,
`kwait <- 0` (rule R80). The addition is 16 bits wide; it overflows in no state whose fetch
succeeds (log entry 6). -/
def State.enterExecute (s : State) : State :=
  { s with started := true, pc := s.pc + 2#16, kwait := false }

end Sys2Proof.Machine
end

