-- ==== Sys2Proof/Machine/Operands.lean ====
section
/-!
DEFINITION. Operand forms (spec/30_encoding.md rule R62, spec/43_index_memory.md rule R125,
spec/45_keypad_timer_font.md rule R148).
-/

namespace Sys2Proof.Machine

/-- `zext_16` of a byte (rule R62). -/
def zextByte (b : Byte) : Word := b.setWidth 16

/-- `zext_16` of `NNN` (rule R62). -/
def zextAddr (a : Addr) : Word := a.setWidth 16

/-- The effective address `I + k`, a natural number, not reduced (rules R48, R125). -/
def effAddr (s : State) (k : Nat) : Nat := s.index.toNat + k

/-- The three decimal digits of a byte, hundreds first (rule R122). -/
def bcdDigits (b : Byte) : List Byte :=
  [BitVec.ofNat 8 (b.toNat / 100), BitVec.ofNat 8 (b.toNat / 10 % 10), BitVec.ofNat 8 (b.toNat % 10)]

/-- `X` as a count: registers `V[0]` to `V[X]` inclusive (rule R62). -/
def regCount (x : Reg) : Nat := x.toNat + 1

/-- The contents of `V[0]` to `V[X]`, in order (rule R123). -/
def regsUpTo (s : State) (x : Reg) : List Byte :=
  (List.range (regCount x)).map fun k => s.getV (BitVec.ofNat 4 k)

/-- `V[k] <- b` for the bytes in order, from `V[k]` on (rule R124). -/
def setRegsFrom (s : State) (k : Nat) : List Byte → State
  | [] => s
  | b :: bs => setRegsFrom (s.setV (BitVec.ofNat 4 k) b) (k + 1) bs

/-- The key a key query names: the value of `V[X]`, checked against the 16 keys (rule R148). -/
def keyOperand (s : State) (x : Reg) : Except Fault Nat :=
  if (s.getV x).toNat < 16 then .ok (s.getV x).toNat else .error .addressOutOfRange

/-- The least pressed key, if any (rule R144). -/
def leastKey (s : State) : Option Nat := (List.range 16).find? s.keyDown

/-- The `N` sprite bytes at `I`; `N = 0` reads nothing and cannot fault (rule R132). -/
def spriteRows (s : State) (n : Nibble) : Except Fault (List Byte) :=
  if n = 0#4 then .ok [] else memReadBytes s (effAddr s 0) n.toNat

/-- Skip the next instruction slot when the condition holds (rule R98). -/
def skipIf (c : Bool) (s : State) : State := if c then s.setPc (s.pc + 2#16) else s

end Sys2Proof.Machine
end

