-- ==== Sys2Proof/Machine/Flags.lean ====
section
/-!
DEFINITION. The flag computations (spec/10_state.md rule R12, spec/42_register_alu.md rule R111).
The only flag is `VF`; a side effect writes it 0 or 1.
-/

namespace Sys2Proof.Machine

/-- A flag as a byte: 1 or 0. -/
def flagByte (b : Bool) : Byte := if b then 1#8 else 0#8

/-- `VF <- 1` or `VF <- 0` (rule R12). -/
def State.setFlag (s : State) (b : Bool) : State := s.setV flagReg (flagByte b)

/-- Carry out of an addition: the sum exceeds 255 (rule R106). -/
def carryOut (a b : Byte) : Bool := decide (a.toNat + b.toNat > 255)

/-- No borrow: the minuend is at least the subtrahend (rules R107, R109). -/
def noBorrow (a b : Byte) : Bool := decide (b.toNat ≤ a.toNat)

/-- The bit a right shift by one moves out (rule R108). -/
def lowBit (a : Byte) : Bool := a.getLsbD 0

/-- The bit a left shift by one moves out (rule R110). -/
def highBit (a : Byte) : Bool := a.getLsbD 7

end Sys2Proof.Machine
end

