-- ==== Sys2Proof/Machine/Alu.lean ====
section
/-!
DEFINITION. Register load, move, logic and arithmetic (spec/42_register_alu.md). Statements run in
written order and a register name is read when its statement runs, so an operand that is `VF` is
read after the flag write where the flag is written first (rule R112): UNVERIFIED (log entry 13), unsafe.
-/

namespace Sys2Proof.Machine

/-- LD VX,NN (rule R100). -/
def execLdImm (x : Reg) (nn : Byte) (s : State) : Result := .next (s.setV x nn)

/-- ADD VX,NN (rule R101): modulo 256, no flag. -/
def execAddImm (x : Reg) (nn : Byte) (s : State) : Result := .next (s.setV x (s.getV x + nn))

/-- LD VX,VY (rule R102). -/
def execLdReg (x y : Reg) (s : State) : Result := .next (s.setV x (s.getV y))

/-- OR VX,VY (rule R103). -/
def execOr (x y : Reg) (s : State) : Result := .next (s.setV x (s.getV x ||| s.getV y))

/-- AND VX,VY (rule R104). -/
def execAnd (x y : Reg) (s : State) : Result := .next (s.setV x (s.getV x &&& s.getV y))

/-- XOR VX,VY (rule R105). -/
def execXor (x y : Reg) (s : State) : Result := .next (s.setV x (s.getV x ^^^ s.getV y))

/-- ADD VX,VY (rule R106): the sum first, the carry last. -/
def execAddReg (x y : Reg) (s : State) : Result :=
  .next ((s.setV x (s.getV x + s.getV y)).setFlag (carryOut (s.getV x) (s.getV y)))

/-- `V[d] <- V[a] - V[b]`, both read now. -/
def subInto (d a b : Reg) (s : State) : State := s.setV d (s.getV a - s.getV b)

/-- SUB VX,VY (rule R107): the flag first, then the difference of the registers as they are then. -/
def execSub (x y : Reg) (s : State) : Result :=
  .next (subInto x x y (s.setFlag (noBorrow (s.getV x) (s.getV y))))

/-- SUBN VX,VY (rule R109): as SUB with the operands exchanged, into VX. -/
def execSubn (x y : Reg) (s : State) : Result :=
  .next (subInto x y x (s.setFlag (noBorrow (s.getV y) (s.getV x))))

/-- SHR VX (rule R108): the flag first, then the shift of the register as it is then. -/
def execShr (x : Reg) (s : State) : Result :=
  let t := s.setFlag (lowBit (s.getV x))
  .next (t.setV x (t.getV x >>> 1))

/-- SHL VX (rule R110): the flag first, then the shift of the register as it is then. -/
def execShl (x : Reg) (s : State) : Result :=
  let t := s.setFlag (highBit (s.getV x))
  .next (t.setV x (t.getV x <<< 1))

end Sys2Proof.Machine
end

