-- ==== Sys2Proof/Machine/ControlFlow.lean ====
section
/-!
DEFINITION. Control transfer (spec/41_control_flow.md) and the unrecognised word
(spec/40_cycle.md rule R87). In every meaning `pc` is already the instruction's address plus 2
(rule R82).
-/

namespace Sys2Proof.Machine

/-- `NOP*` (rule R87): nothing beyond fetch and advance. -/
def execNop (_w : Word) (s : State) : Result := .next s

/-- RET (rule R90): `pc <- pop()`. -/
def execRet (s : State) : Result :=
  bindFault (pop s) fun r => .next (r.1.setPc r.2)

/-- JP NNN (rule R91): `pc <- NNN`. -/
def execJp (nnn : Addr) (s : State) : Result := .next (s.setPc (zextAddr nnn))

/-- CALL NNN (rule R92): `push(pc) ; pc <- NNN`. -/
def execCall (nnn : Addr) (s : State) : Result :=
  bindFault (push s s.pc) fun t => .next (t.setPc (zextAddr nnn))

/-- SE VX,NN (rule R93). -/
def execSeImm (x : Reg) (nn : Byte) (s : State) : Result := .next (skipIf (s.getV x == nn) s)

/-- SNE VX,NN (rule R94). -/
def execSneImm (x : Reg) (nn : Byte) (s : State) : Result := .next (skipIf (s.getV x != nn) s)

/-- SE VX,VY (rule R95). -/
def execSeReg (x y : Reg) (s : State) : Result := .next (skipIf (s.getV x == s.getV y) s)

/-- SNE VX,VY (rule R96). -/
def execSneReg (x y : Reg) (s : State) : Result := .next (skipIf (s.getV x != s.getV y) s)

/-- JP V0,NNN (rule R97): the full 16-bit sum, not masked to 12 bits. -/
def execJpV0 (nnn : Addr) (s : State) : Result :=
  .next (s.setPc (zextAddr nnn + zextByte (s.getV 0#4)))

end Sys2Proof.Machine
end

