-- ==== Sys2Proof/Machine/Display.lean ====
section
/-!
DEFINITION. Random number and display (spec/44_random_display.md).
-/

namespace Sys2Proof.Machine

/-- RND VX,NN (rule R130): the next free draw under the mask. -/
def execRnd (x : Reg) (nn : Byte) (s : State) : Result :=
  .next ((s.setV x (Config.rand s.draws &&& nn)).advanceDraws 1)

/-- CLS (rule R131). -/
def execCls (s : State) : Result := .next s.clearFb

/-- A sprite pixel that is 1, at column `x` of row `y`: clipped beyond column 63; else the collision
is tested before the toggle (rule R132). -/
def drawPixel (y x : Nat) (s : State) : State :=
  if x ≤ 63 then (if s.pixel y x then s.setFlag true else s).togglePixel y x else s

/-- Bit `7 - c` of a sprite byte, its column `c` from the left (rule R132). -/
def spriteBit (row : Byte) (c : Nat) : Bool := row.getLsbD (7 - c)

/-- One sprite row at row `y`, columns left to right; clipped below row 31 (rule R132). -/
def drawRow (y x0 : Nat) (row : Byte) (s : State) : State :=
  if y ≤ 31 then
    (List.range 8).foldl (fun t c => if spriteBit row c then drawPixel y (x0 + c) t else t) s
  else s

/-- The sprite rows, top to bottom, the first at row `y` (rule R132). -/
def drawRows (y x0 : Nat) : List Byte → State → State
  | [], s => s
  | row :: rows, s => drawRows (y + 1) x0 rows (drawRow y x0 row s)

/-- The origin's column, `VX mod 64` (rule R132). -/
def originX (s : State) (x : Reg) : Nat := (s.getV x).toNat % 64

/-- The origin's row, `VY mod 32` (rule R132). -/
def originY (s : State) (y : Reg) : Nat := (s.getV y).toNat % 32

/-- DRW VX,VY,N (rule R132): the origin is read before the flag is reset. -/
def execDrw (x y : Reg) (n : Nibble) (s : State) : Result :=
  bindFault (spriteRows s n) fun rows =>
    .next (drawRows (originY s y) (originX s x) rows (s.setFlag false))

end Sys2Proof.Machine
end

