-- ==== Sys2Proof/Machine/IndexMemory.lean ====
section
/-!
DEFINITION. Index register and memory transfer (spec/43_index_memory.md). No flag is written and no
access changes `I` (rule R125).
-/

namespace Sys2Proof.Machine

/-- LD I,NNN (rule R120). -/
def execLdI (nnn : Addr) (s : State) : Result := .next (s.setIndex (zextAddr nnn))

/-- ADD I,VX (rule R121): modulo 65536, no flag. -/
def execAddI (x : Reg) (s : State) : Result := .next (s.setIndex (s.index + zextByte (s.getV x)))

/-- LD B,VX (rule R122): the three decimal digits to `I`, `I + 1`, `I + 2`. -/
def execLdB (x : Reg) (s : State) : Result :=
  bindFault (memWriteBytes s (effAddr s 0) (bcdDigits (s.getV x))) .next

/-- LD [I],VX (rule R123): `V[0]` to `V[X]` to `I` on. -/
def execLdMemVx (x : Reg) (s : State) : Result :=
  bindFault (memWriteBytes s (effAddr s 0) (regsUpTo s x)) .next

/-- LD VX,[I] (rule R124): `V[0]` to `V[X]` from `I` on. -/
def execLdVxMem (x : Reg) (s : State) : Result :=
  bindFault (memReadBytes s (effAddr s 0) (regCount x)) fun bs => .next (setRegsFrom s 0 bs)

end Sys2Proof.Machine
end

