-- ==== Sys2Proof/Machine/KeypadTimerFont.lean ====
section
/-!
DEFINITION. Keypad, timer and font instructions, present when `EXT_OPS`
(spec/45_keypad_timer_font.md). The spec takes them from general knowledge: UNVERIFIED (log entry 3), unsafe.
-/

namespace Sys2Proof.Machine

/-- SKP VX (rule R141). -/
def execSkp (x : Reg) (s : State) : Result :=
  bindFault (keyOperand s x) fun k => .next (skipIf (s.keyDown k) s)

/-- SKNP VX (rule R142). -/
def execSknp (x : Reg) (s : State) : Result :=
  bindFault (keyOperand s x) fun k => .next (skipIf (!s.keyDown k) s)

/-- LD VX,DT (rule R143). -/
def execLdVxDt (x : Reg) (s : State) : Result := .next (s.setV x s.dt)

/-- LD VX,K (rule R144): take the least pressed key, or stay on this instruction and wait. -/
def execLdVxK (x : Reg) (s : State) : Result :=
  match leastKey s with
  | some k => .next ((s.setV x (BitVec.ofNat 8 k)).setKwait false)
  | none => .next ((s.setPc (s.pc - 2#16)).setKwait true)

/-- LD DT,VX (rule R145). -/
def execLdDtVx (x : Reg) (s : State) : Result := .next (s.setDt (s.getV x))

/-- LD ST,VX (rule R146). -/
def execLdStVx (x : Reg) (s : State) : Result := .next (s.setSt (s.getV x))

/-- LD F,VX (rule R147): `I <- (FONT_BASE + 5 × V[X]) mod 65536`. -/
def execLdF (x : Reg) (s : State) : Result :=
  .next (s.setIndex (zextAddr Config.fontBase + 5#16 * zextByte (s.getV x)))

end Sys2Proof.Machine
end

