-- ==== Sys2Proof/Machine/Cycle.lean ====
section
/-!
DEFINITION. One cycle (spec/40_cycle.md rule R80), and placing a word where the next cycle fetches.
-/

namespace Sys2Proof.Machine

/-- One fetch-decode-execute cycle, in the machine with this `EXT_OPS` (rules R80, R140). A latched
fault is answered again (rule R156); a fetch outside memory raises (rule R81); else the decoded
instruction runs on the advanced state. Every instruction is one such cycle, whole, and nothing of its
duration is state (spec/70_reset_and_hazards.md rule R194). -/
def cycleWith (ext : Bool) (s : State) : Result :=
  match s.fault with
  | some f => raise f
  | none => bindFault (fetch s) fun w => exec (decodeWith ext w) s.enterExecute

/-- The state made ready to fetch: no fault latched, and `pc` where two bytes can be read (log
entry 9). Already so in the state after reset. -/
def State.readyToFetch (s : State) : State :=
  { s with fault := none, pc := if s.pc.toNat + 1 < Config.memSize then s.pc else 512#16 }

/-- A word at the place the next cycle fetches, high byte at the lower address (rule R43). -/
def State.placeWord (s : State) (w : Word) : State :=
  let t := s.readyToFetch
  t.setMem (t.mem.writeList t.pc.toNat [hiByte w, loByte w])

end Sys2Proof.Machine
end

