-- ==== Sys2Proof/Machine/Step.lean ====
section
/-!
DEFINITION. `step` (spec/40_cycle.md rule R80), and the host's way of placing one instruction.
-/

namespace Sys2Proof.Machine

/-- One cycle of this machine: exactly one instruction is one step (rule R194). -/
def step (s : State) : Host.Outcome State Fault Refusal := cycleWith Config.extOps s

/-- The instruction whose table bits are `w`, stored where `step` fetches next (log entry 9). -/
def State.withFetchWord (s : State) (nbits w : Nat) : State := s.placeWord (tableWord nbits w)

end Sys2Proof.Machine
end

