-- ==== Sys2Proof/Machine/HostOps.lean ====
section
/-!
DEFINITION. The host's operations on the core, each atomic and between cycles
(spec/70_reset_and_hazards.md rule R186, spec/60_exceptions.md rules R163 to R168), the state a
faulting cycle leaves (rules R155, R156), and any interleaving of the operations (rule R188).
-/

namespace Sys2Proof.Machine

/-! ### Reads (rules R164, R167, R168): functions of the state that change nothing -/

/-- `tone = (ST ≠ 0)` (rules R53, R164). -/
def State.tone (s : State) : Bool := s.st != 0#8

/-- The timer read interface: `DT` and `ST` (rule R164). -/
def State.timers (s : State) : Byte × Byte := (s.dt, s.st)

/-- The framebuffer read interface (rules R134, R167). -/
def State.framebuffer (s : State) : Framebuffer := s.fb

/-- The keypad-wait status (rule R168). -/
def State.keypadWait (s : State) : Bool := s.kwait

/-- The code of the `fault` latch (rule R154). -/
def State.faultCode (s : State) : Nat :=
  match s.fault with
  | none => 0
  | some .addressOutOfRange => 1
  | some .stackOverflow => 2
  | some .stackUnderflow => 3

/-! ### Writes -/

/-- `tick` (rule R163): each timer counts down by one and stays at 0. -/
def tick (s : State) : State :=
  { s with dt := if s.dt = 0#8 then 0#8 else s.dt - 1#8, st := if s.st = 0#8 then 0#8 else s.st - 1#8 }

/-- `set_key(k, b)` (rule R166). -/
def setKey (k : Fin 16) (b : Bool) (s : State) : State := { s with key := s.key.set k.val b k.isLt }

/-- `reset` (rule R180): every piece of the spec's state to its value of rule R27. The count of free
values goes on, so that a draw after reset is a fresh one (log entry 8). -/
def resetCore (s : State) : State := { State.reset with draws := s.draws }

/-- What a host operation answers. -/
inductive HostResult where
  /-- The operation did its work (`step`: success). -/
  | success
  /-- `step` answered `Fault(K)` (rule R155). -/
  | fault (f : Fault)
  /-- `load` of an image longer than 3584 bytes (rule R182). -/
  | imageTooLarge
  /-- The spec gives the operation no meaning here (rule R183). -/
  | refused (r : Refusal)
  deriving DecidableEq, Repr

/-- `load(bytes)` (rules R181 to R183). A refused `load` leaves the state as it was: DESIGN CHOICE (log
entry 17), unsafe for a claim about a late `load`. -/
def loadImage (image : List Byte) (s : State) : HostResult × State :=
  if s.started then (.refused .loadAfterCycle, s)
  else if Config.maxImage < image.length then (.imageTooLarge, s)
  else (.success, s.setMem (s.mem.writeList Config.loadOffset image))

/-! ### What a faulting cycle leaves (rule R155) -/

/-- `n` bytes from address `a` on become free values, as far as they lie inside memory. -/
def scrambleMem (a n : Nat) (s : State) : State :=
  s.setMem (s.mem.writeList a ((List.range (min n (Config.memSize - a))).map fun k => Config.leftoverByte (s.draws + k)))

/-- What the instruction could have written before it raised becomes a free value (rule R155: `VF`
for DRW; some bytes for LD B and LD [I]; some registers for LD VX,[I]). On the advanced state. -/
def leaveBehind (i : Instr) (s : State) : State :=
  match i with
  | .drw _ _ _ => s.setV flagReg (Config.leftoverByte s.draws)
  | .ldB _ => scrambleMem (effAddr s 0) 3 s
  | .ldMemVx x => scrambleMem (effAddr s 0) (regCount x) s
  | .ldVxMem x =>
    setRegsFrom s 0 ((List.range (regCount x)).map fun k => Config.leftoverByte (s.draws + k))
  | .cls | .ret | .jp _ | .call _ | .seImm _ _ | .sneImm _ _ | .seReg _ _ | .ldImm _ _ | .addImm _ _
  | .ldReg _ _ | .orReg _ _ | .andReg _ _ | .xorReg _ _ | .addReg _ _ | .sub _ _ | .shr _
  | .subn _ _ | .shl _ | .sneReg _ _ | .ldI _ | .jpV0 _ | .rnd _ _ | .skp _ | .sknp _ | .ldVxDt _
  | .ldVxK _ | .ldDtVx _ | .ldStVx _ | .addI _ | .ldF _ | .nop _ => s

/-- The state after a cycle of `s` that raised `f` (rule R155). A fetch fault changes `started` and
the latch only; an execute-stage fault leaves `pc` advanced and free values where the spec leaves
the value unspecified, `kwait` among them (log entry 5). -/
def faultedState (f : Fault) (s : State) : State :=
  match fetch s with
  | .error _ => s.setStarted.latchFault f
  | .ok w =>
    (((leaveBehind (decode w) s.enterExecute).setKwait (Config.leftoverBit s.draws)).advanceDraws 16).latchFault f

/-- `step` as the host invokes it: its answer, and the state it leaves (rules R80, R155, R156). -/
def invokeStep (s : State) : HostResult × State :=
  match s.fault with
  | some f => (.fault f, s)
  | none =>
    match step s with
    | .next t => (.success, t)
    | .fault f => (.fault f, faultedState f s)
    | .refused r => (.refused r, s)

/-! ### Schedules (rules R186, R188) -/

/-- The host's operations that can change the core's state: the complete list of rule R186, less the
reads. -/
inductive HostOp where
  | reset
  | load (image : List Byte)
  | step
  | tick
  | setKey (k : Fin 16) (b : Bool)
  deriving DecidableEq, Repr

/-- One host operation: its answer and the state it leaves. -/
def hostStep (op : HostOp) (s : State) : HostResult × State :=
  match op with
  | .reset => (.success, resetCore s)
  | .load image => loadImage image s
  | .step => invokeStep s
  | .tick => (.success, tick s)
  | .setKey k b => (.success, setKey k b s)

/-- Any interleaving of host operations, from a state (rule R188). A refused `load` is passed over: the
run goes on from the unchanged state, where rule R183 gives no transition. DESIGN CHOICE (log entry
17), safe for a claim over the states runs reach, unsafe for a claim about a late `load`. -/
def runHost : List HostOp → State → State
  | [], s => s
  | op :: ops, s => runHost ops (hostStep op s).2

end Sys2Proof.Machine
end

