-- ==== Sys2Proof/WellFormed.lean ====
section
/-!
DEFINITION. Well-formed instructions. Every operand field is a bit vector of its encoded width
(spec/30_encoding.md rule R61), so the only condition is that of `NOP*`: its word is unrecognised
(rules R64, R70).
-/

namespace Sys2Proof

/-- Well-formed in the machine with this `EXT_OPS` (rule R140): the seven keypad, timer and font
instructions exist only when it is true, and a `NOP*` word selects no row. -/
def Instr.wellFormedWith (ext : Bool) : Instr → Bool
  | .cls | .ret | .jp _ | .call _ | .seImm _ _ | .sneImm _ _ | .seReg _ _ | .ldImm _ _
  | .addImm _ _ | .ldReg _ _ | .orReg _ _ | .andReg _ _ | .xorReg _ _ | .addReg _ _ | .sub _ _
  | .shr _ | .subn _ _ | .shl _ | .sneReg _ _ | .ldI _ | .jpV0 _ | .rnd _ _ | .drw _ _ _
  | .addI _ | .ldB _ | .ldMemVx _ | .ldVxMem _ => true
  | .skp _ | .sknp _ | .ldVxDt _ | .ldVxK _ | .ldDtVx _ | .ldStVx _ | .ldF _ => ext
  | .nop w => !recognisedWith ext w

/-- Well-formed in this machine. -/
def Instr.wellFormed (i : Instr) : Bool := i.wellFormedWith Config.extOps

end Sys2Proof
end

