-- ==== Sys2Proof/Safety.lean ====
section
/-!
DEFINITION. The terms claims use: parts of the state and frames, what a store leaves in memory, the spec's
own tables of faults (spec/60_exceptions.md rule R150) and of `pc` (spec/10_state.md rule R14), what a sprite covers
(spec/44_random_display.md rule R132), the invariant of every run, and what counts as a safe step.
-/

namespace Sys2Proof.Machine

/-! ### Frames -/

/-- The parts of the state (rule R10), one per field. -/
inductive Part where
  | regs | index | pc | stack | sp | mem | fb | dt | st | key | kwait | fault | started | draws
  deriving DecidableEq, Repr

/-- The part reads the same in both states: every register, every stack entry, every byte of memory,
every cell, every key. -/
def SameOn (p : Part) (s t : State) : Prop :=
  match p with
  | .regs => ∀ r : Reg, t.getV r = s.getV r
  | .index => t.index = s.index
  | .pc => t.pc = s.pc
  | .stack => ∀ k : Fin 16, t.stack[k] = s.stack[k]
  | .sp => t.sp = s.sp
  | .mem => ∀ a : Nat, t.mem.read a = s.mem.read a
  | .fb => ∀ y x : Nat, t.pixel y x = s.pixel y x
  | .dt => t.dt = s.dt
  | .st => t.st = s.st
  | .key => ∀ k : Nat, t.keyDown k = s.keyDown k
  | .kwait => t.kwait = s.kwait
  | .fault => t.fault = s.fault
  | .started => t.started = s.started
  | .draws => t.draws = s.draws

/-- Every part but the named ones is unchanged. -/
def Frame (changed : List Part) (s t : State) : Prop := ∀ p : Part, p ∉ changed → SameOn p s t

/-! ### The instruction at `pc` -/

/-- The big-endian word of the two bytes at an address (rule R43). -/
def wordAt (s : State) (a : Nat) : Word := wordOfBytes (s.mem.read a) (s.mem.read (a + 1))

/-- The instruction the next cycle would run. -/
def nextInstr (s : State) : Instr := decode (wordAt s s.pc.toNat)

/-! ### The table of faults (rule R150) -/

/-- The fault the execute stage of an instruction raises, by the conditions of rule R150. -/
def faultOf (i : Instr) (s : State) : Option Fault :=
  match i with
  | .ret => if s.sp.val = 0 then some .stackUnderflow else none
  | .call _ => if s.sp.val = 16 then some .stackOverflow else none
  | .drw _ _ n => if 1 ≤ n.toNat ∧ 4096 ≤ s.index.toNat + n.toNat - 1 then some .addressOutOfRange else none
  | .ldB _ => if 4096 ≤ s.index.toNat + 2 then some .addressOutOfRange else none
  | .ldMemVx x | .ldVxMem x =>
    if 4096 ≤ s.index.toNat + x.toNat then some .addressOutOfRange else none
  | .skp x | .sknp x => if 16 ≤ (s.getV x).toNat then some .addressOutOfRange else none
  | .cls | .jp _ | .seImm _ _ | .sneImm _ _ | .seReg _ _ | .ldImm _ _ | .addImm _ _ | .ldReg _ _
  | .orReg _ _ | .andReg _ _ | .xorReg _ _ | .addReg _ _ | .sub _ _ | .shr _ | .subn _ _ | .shl _
  | .sneReg _ _ | .ldI _ | .jpV0 _ | .rnd _ _ | .ldVxDt _ | .ldVxK _ | .ldDtVx _ | .ldStVx _
  | .addI _ | .ldF _ | .nop _ => none

/-- A step that cannot fault: what rule R192 asks of a program, in the state before the cycle. -/
def SafeStep (s : State) : Prop :=
  s.fault = none ∧ s.pc.toNat ≤ 4094 ∧ faultOf (nextInstr s) s = none

/-! ### What a store leaves in memory (rules R122, R123) -/

/-- The byte an instruction stores at an address, if it stores one there. -/
def storedByte (i : Instr) (s : State) (a : Nat) : Option Byte :=
  match i with
  | .ldB x =>
    if a = effAddr s 0 then some (BitVec.ofNat 8 ((s.getV x).toNat / 100))
    else if a = effAddr s 1 then some (BitVec.ofNat 8 ((s.getV x).toNat / 10 % 10))
    else if a = effAddr s 2 then some (BitVec.ofNat 8 ((s.getV x).toNat % 10))
    else none
  | .ldMemVx x =>
    if effAddr s 0 ≤ a ∧ a ≤ effAddr s x.toNat then some (s.getV (BitVec.ofNat 4 (a - effAddr s 0)))
    else none
  | .cls | .ret | .jp _ | .call _ | .seImm _ _ | .sneImm _ _ | .seReg _ _ | .ldImm _ _ | .addImm _ _
  | .ldReg _ _ | .orReg _ _ | .andReg _ _ | .xorReg _ _ | .addReg _ _ | .sub _ _ | .shr _ | .subn _ _
  | .shl _ | .sneReg _ _ | .ldI _ | .jpV0 _ | .rnd _ _ | .drw _ _ _ | .skp _ | .sknp _ | .ldVxDt _
  | .ldVxK _ | .ldDtVx _ | .ldStVx _ | .addI _ | .ldF _ | .ldVxMem _ | .nop _ => none

/-- The byte at an address after an instruction: the one it stored there, or else the one before. -/
def byteAfter (i : Instr) (s : State) (a : Nat) : Byte := (storedByte i s a).getD (s.mem.read a)

/-! ### The table of `pc` (rule R14) -/

/-- `pc` after a successful cycle that ran `i` fetched at `s.pc`, from the state `s` before the cycle. -/
def pcAfter (i : Instr) (s : State) : Nat :=
  match i with
  | .jp nnn | .call nnn => nnn.toNat
  | .jpV0 nnn => nnn.toNat + (s.getV 0).toNat
  | .ret => if h : 0 < s.sp.val then (s.stack[s.sp.val - 1]'(by omega)).toNat else s.pc.toNat + 2
  | .seImm x nn => s.pc.toNat + if s.getV x = nn then 4 else 2
  | .sneImm x nn => s.pc.toNat + if s.getV x ≠ nn then 4 else 2
  | .seReg x y => s.pc.toNat + if s.getV x = s.getV y then 4 else 2
  | .sneReg x y => s.pc.toNat + if s.getV x ≠ s.getV y then 4 else 2
  | .skp x => s.pc.toNat + if s.keyDown (s.getV x).toNat = true then 4 else 2
  | .sknp x => s.pc.toNat + if s.keyDown (s.getV x).toNat = false then 4 else 2
  | .ldVxK _ => s.pc.toNat + if ∃ k : Fin 16, s.keyDown k = true then 2 else 0
  | .cls | .ldImm _ _ | .addImm _ _ | .ldReg _ _ | .orReg _ _ | .andReg _ _ | .xorReg _ _
  | .addReg _ _ | .sub _ _ | .shr _ | .subn _ _ | .shl _ | .ldI _ | .rnd _ _ | .drw _ _ _
  | .ldVxDt _ | .ldDtVx _ | .ldStVx _ | .addI _ | .ldF _ | .ldB _ | .ldMemVx _ | .ldVxMem _
  | .nop _ => s.pc.toNat + 2

/-! ### Sprites (rule R132) -/

/-- The sprite of `DRW VX,VY,N` has a pixel that is 1 at the cell in row `row`, column `col` of the
framebuffer. -/
def spriteOn (s : State) (x y : Reg) (n : Nibble) (row col : Nat) : Bool :=
  let x0 := (s.getV x).toNat % 64
  let y0 := (s.getV y).toNat % 32
  decide (y0 ≤ row ∧ row < y0 + n.toNat ∧ x0 ≤ col ∧ col < x0 + 8)
    && (s.mem.read (effAddr s (row - y0))).getLsbD (7 - (col - x0))

/-! ### The flag (rule R12) -/

/-- The six instructions that write `VF` as a side effect (rule R12). -/
def writesFlag : Instr → Bool
  | .addReg _ _ | .sub _ _ | .shr _ | .subn _ _ | .shl _ | .drw _ _ _ => true
  | .cls | .ret | .jp _ | .call _ | .seImm _ _ | .sneImm _ _ | .seReg _ _ | .ldImm _ _ | .addImm _ _
  | .ldReg _ _ | .orReg _ _ | .andReg _ _ | .xorReg _ _ | .sneReg _ _ | .ldI _ | .jpV0 _ | .rnd _ _
  | .skp _ | .sknp _ | .ldVxDt _ | .ldVxK _ | .ldDtVx _ | .ldStVx _ | .addI _ | .ldF _ | .ldB _
  | .ldMemVx _ | .ldVxMem _ | .nop _ => false

/-- The general registers an instruction names as its destination, `VF` as a side effect aside. -/
def isDest (i : Instr) (r : Reg) : Bool :=
  match i with
  | .ldImm x _ | .addImm x _ | .ldReg x _ | .orReg x _ | .andReg x _ | .xorReg x _ | .addReg x _
  | .sub x _ | .shr x | .subn x _ | .shl x | .rnd x _ | .ldVxDt x | .ldVxK x => decide (r = x)
  | .ldVxMem x => decide (r.toNat ≤ x.toNat)
  | .cls | .ret | .jp _ | .call _ | .seImm _ _ | .sneImm _ _ | .seReg _ _ | .sneReg _ _ | .ldI _
  | .jpV0 _ | .drw _ _ _ | .skp _ | .sknp _ | .ldDtVx _ | .ldStVx _ | .addI _ | .ldF _ | .ldB _
  | .ldMemVx _ | .nop _ => false

/-! ### The invariant of every run (rules R15, R16, R19) -/

/-- `pc ≤ 4350` (rule R15). -/
abbrev State.PcBound (s : State) : Prop := s.pc.toNat ≤ 4350

/-- Every live stack entry is at most 4096, as a value a call pushed is (rule R15). -/
abbrev State.StackBound (s : State) : Prop := ∀ k : Fin 16, k.val < s.sp.val → s.stack[k].toNat ≤ 4096

/-- Memory is canonical, `pc` and the return addresses are in their range. -/
abbrev State.Inv (s : State) : Prop := s.mem.wf = true ∧ s.PcBound ∧ s.StackBound

/-- Some schedule of host operations leads from reset to the state (rule R188). -/
def Reachable (s : State) : Prop := ∃ ops : List HostOp, runHost ops State.reset = s

/-- Instructions executed one after the other, with nothing around them. -/
def execAll : List Instr → State → Result
  | [], s => .next s
  | i :: is, s =>
    match exec i s with
    | .next t => execAll is t
    | .fault f => .fault f
    | .refused r => .refused r

end Sys2Proof.Machine
end

