-- ==== Sys2Proof/Certificates/Slice0/Obligations.lean ====
section
/-!
DEFINITION. The statements about the model, each from the spec's rules named in its docstring.
`Frame parts s t` says that every part of the state but the named ones is unchanged: every register,
stack entry, byte of memory, cell and key it covers.
-/

open Sys2Proof Sys2Proof.Machine

/-! ### Reset and the invariant -/

/-- R27: after reset everything is 0, `pc` is 512, no fault is latched, no cycle has run. -/
def Obligations.ResetValues : Prop :=
  (∀ r : Reg, State.reset.getV r = 0#8) ∧ State.reset.index = 0#16 ∧ State.reset.pc = 512#16 ∧
    State.reset.sp.val = 0 ∧ (∀ k : Fin 16, State.reset.stack[k] = 0#16) ∧
    (∀ a : Nat, State.reset.mem.read a = 0#8) ∧ (∀ y x : Nat, State.reset.pixel y x = false) ∧
    State.reset.dt = 0#8 ∧ State.reset.st = 0#8 ∧ (∀ k : Nat, State.reset.keyDown k = false) ∧
    State.reset.kwait = false ∧ State.reset.fault = none ∧ State.reset.started = false

/-- The invariant (R15, R16, R19) holds after reset. -/
def Obligations.ResetMeetsInvariant : Prop := State.reset.Inv

/-- R15, R16, R19: every step keeps memory canonical, `pc ≤ 4350` and every live return address at
most 4096, from every state that has them. -/
def Obligations.StepKeepsInvariant : Prop :=
  ∀ s t : State, s.Inv → step s = .next t → t.Inv

/-- R28, R186: every host operation keeps the invariant, a faulting `step` included. -/
def Obligations.HostOperationsKeepInvariant : Prop :=
  ∀ (op : HostOp) (s : State), s.Inv → (hostStep op s).2.Inv

/-- R15: `pc ≤ 4350` in every state that some schedule of host operations reaches from reset, so a
successful cycle never overflows the 16-bit `pc`, and after it `pc` is at most 4350 too. -/
def Obligations.PcNeverOverflowsInAnyRun : Prop :=
  ∀ s : State, Reachable s →
    s.pc.toNat ≤ 4350 ∧ ∀ t : State, step s = .next t → s.pc.toNat ≤ 4094 ∧ t.pc.toNat ≤ 4350

/-! ### Decoding -/

/-- Decoding the word of a well-formed instruction gives that instruction, every operand at every
value (R61, R64). -/
def Obligations.DecodeOfEncodeIsTheInstruction : Prop :=
  ∀ i : Instr, i.wellFormed = true → decode (encode i) = i

/-- Every word decodes to a well-formed instruction, and encoding that instruction gives the word
back but for the bits the instruction ignores, which become 0: N of `5XY?` and `9XY?` (R69), Y of
`8X?6` and `8X?E` (R108, R110). -/
def Obligations.EncodeOfDecodeIsTheCanonicalWord : Prop :=
  ∀ w : Word, (decode w).wellFormed = true ∧
    encode (decode w) =
      if opOf w = 0x5#4 ∨ opOf w = 0x9#4 then w &&& 0xFFF0#16
      else if opOf w = 0x8#4 ∧ (nOf w = 0x6#4 ∨ nOf w = 0xE#4) then w &&& 0xFF0F#16
      else w

/-- R64: a word that selects a row of the opcode map decodes to that row's instruction; a word that
selects none decodes to `NOP*`; no word selects two rows. For either value of `EXT_OPS`. -/
def Obligations.DecodeFollowsTheOpcodeMap : Prop :=
  ∀ (ext : Bool) (w : Word),
    (∀ r ∈ opcodeMap, r.selects ext w = true → decodeWith ext w = r.make w) ∧
      (recognisedWith ext w = false → decodeWith ext w = .nop w) ∧
      (opcodeMap.filter fun r => r.selects ext w).length ≤ 1

/-- R65 to R68: the secondary selectors of the families 0x0, 0x8, 0xE, 0xF, and the words they leave
to `NOP*`, with `EXT_OPS` true and false, by the spec's decisions D4 to D6 (log entries 3 and 14). -/
def Obligations.SecondarySelectorsDecode : Prop :=
  (∀ w : Word, decode w = decodeWith true w) ∧
  (∀ (ext : Bool) (n : Addr), decodeWith ext (0x0#4 ++ n) =
      if n = 0x0E0#12 then .cls else if n = 0x0EE#12 then .ret else .nop (0x0#4 ++ n)) ∧
  (∀ (ext : Bool) (x y : Reg),
    decodeWith ext (0x8#4 ++ x ++ y ++ 0x0#4) = .ldReg x y ∧
    decodeWith ext (0x8#4 ++ x ++ y ++ 0x1#4) = .orReg x y ∧
    decodeWith ext (0x8#4 ++ x ++ y ++ 0x2#4) = .andReg x y ∧
    decodeWith ext (0x8#4 ++ x ++ y ++ 0x3#4) = .xorReg x y ∧
    decodeWith ext (0x8#4 ++ x ++ y ++ 0x4#4) = .addReg x y ∧
    decodeWith ext (0x8#4 ++ x ++ y ++ 0x5#4) = .sub x y ∧
    decodeWith ext (0x8#4 ++ x ++ y ++ 0x6#4) = .shr x ∧
    decodeWith ext (0x8#4 ++ x ++ y ++ 0x7#4) = .subn x y ∧
    decodeWith ext (0x8#4 ++ x ++ y ++ 0xE#4) = .shl x) ∧
  (∀ (ext : Bool) (x y : Reg) (n : Nibble), n ∈ [0x8#4, 0x9#4, 0xA#4, 0xB#4, 0xC#4, 0xD#4, 0xF#4] →
    decodeWith ext (0x8#4 ++ x ++ y ++ n) = .nop (0x8#4 ++ x ++ y ++ n)) ∧
  (∀ x : Reg, decodeWith true (0xE#4 ++ x ++ 0x9E#8) = .skp x ∧
    decodeWith true (0xE#4 ++ x ++ 0xA1#8) = .sknp x) ∧
  (∀ (x : Reg) (nn : Byte), nn ∉ [0x9E#8, 0xA1#8] →
    decodeWith true (0xE#4 ++ x ++ nn) = .nop (0xE#4 ++ x ++ nn)) ∧
  (∀ (x : Reg) (nn : Byte), decodeWith false (0xE#4 ++ x ++ nn) = .nop (0xE#4 ++ x ++ nn)) ∧
  (∀ (ext : Bool) (x : Reg),
    decodeWith ext (0xF#4 ++ x ++ 0x1E#8) = .addI x ∧ decodeWith ext (0xF#4 ++ x ++ 0x33#8) = .ldB x ∧
    decodeWith ext (0xF#4 ++ x ++ 0x55#8) = .ldMemVx x ∧ decodeWith ext (0xF#4 ++ x ++ 0x65#8) = .ldVxMem x) ∧
  (∀ x : Reg,
    decodeWith true (0xF#4 ++ x ++ 0x07#8) = .ldVxDt x ∧ decodeWith true (0xF#4 ++ x ++ 0x0A#8) = .ldVxK x ∧
    decodeWith true (0xF#4 ++ x ++ 0x15#8) = .ldDtVx x ∧ decodeWith true (0xF#4 ++ x ++ 0x18#8) = .ldStVx x ∧
    decodeWith true (0xF#4 ++ x ++ 0x29#8) = .ldF x) ∧
  (∀ (x : Reg) (nn : Byte), nn ∈ [0x07#8, 0x0A#8, 0x15#8, 0x18#8, 0x29#8] →
    decodeWith false (0xF#4 ++ x ++ nn) = .nop (0xF#4 ++ x ++ nn)) ∧
  (∀ (ext : Bool) (x : Reg) (nn : Byte),
    nn ∉ [0x07#8, 0x0A#8, 0x15#8, 0x18#8, 0x1E#8, 0x29#8, 0x33#8, 0x55#8, 0x65#8] →
    decodeWith ext (0xF#4 ++ x ++ nn) = .nop (0xF#4 ++ x ++ nn))

/-- R69: the low nibble of the families 0x5 and 0x9 is ignored, by the spec's decision D3; the encoder
emits 0 there. -/
def Obligations.RegisterSkipsIgnoreLowNibble : Prop :=
  ∀ (x y : Reg) (n : Nibble),
    decode (0x5#4 ++ x ++ y ++ n) = .seReg x y ∧ decode (0x9#4 ++ x ++ y ++ n) = .sneReg x y ∧
      nOf (encode (.seReg x y)) = 0x0#4 ∧ nOf (encode (.sneReg x y)) = 0x0#4

/-- Words written out from R64 decode to the instructions they stand for, one or more a family. -/
def Obligations.SampleWordsDecode : Prop :=
  decode 0x00EE#16 = .ret ∧ decode 0x1200#16 = .jp 0x200#12 ∧ decode 0x6A02#16 = .ldImm 0xA#4 0x02#8 ∧
    decode 0x8127#16 = .subn 0x1#4 0x2#4 ∧ decode 0x9120#16 = .sneReg 0x1#4 0x2#4 ∧
    decode 0xB300#16 = .jpV0 0x300#12 ∧ decode 0xC30F#16 = .rnd 0x3#4 0x0F#8 ∧
    decode 0xD123#16 = .drw 0x1#4 0x2#4 0x3#4 ∧ decode 0xE29E#16 = .skp 0x2#4 ∧
    decode 0xF50A#16 = .ldVxK 0x5#4 ∧ decode 0xF233#16 = .ldB 0x2#4 ∧ decode 0x8128#16 = .nop 0x8128#16

/-- R140 (the spec's decision D6, log entry 3), strict reading: with `EXT_OPS` false the seven words
are `NOP*`, every other word decodes as before, a successful cycle leaves both timers alone and
`kwait` at 0, and no cycle depends on the keypad or on a timer. -/
def Obligations.WithoutExtensionOpsTimersAndKeysAreDead : Prop :=
  (∀ (x : Reg) (nn : Byte), nn ∈ [0x07#8, 0x0A#8, 0x15#8, 0x18#8, 0x29#8] →
    decodeWith false (0xF#4 ++ x ++ nn) = .nop (0xF#4 ++ x ++ nn)) ∧
  (∀ (x : Reg) (nn : Byte), nn ∈ [0x9E#8, 0xA1#8] →
    decodeWith false (0xE#4 ++ x ++ nn) = .nop (0xE#4 ++ x ++ nn)) ∧
  (∀ w : Word, ¬(opOf w = 0xF#4 ∧ nnOf w ∈ [0x07#8, 0x0A#8, 0x15#8, 0x18#8, 0x29#8]) →
    ¬(opOf w = 0xE#4 ∧ nnOf w ∈ [0x9E#8, 0xA1#8]) → decodeWith false w = decodeWith true w) ∧
  (∀ s t : State, cycleWith false s = .next t → t.dt = s.dt ∧ t.st = s.st ∧ t.kwait = false) ∧
  (∀ (s t : State) (k : Fin 16) (b : Bool) (d e : Byte), cycleWith false s = .next t →
    cycleWith false (setKey k b ((s.setDt d).setSt e)) = .next (setKey k b ((t.setDt d).setSt e)))

/-! ### The cycle -/

/-- R80: a latched fault is answered again; a fetch outside memory raises; otherwise the step is
`exec` of the decoded instruction on the state with `started` 1, `pc` advanced by 2 and `kwait` 0.
A cycle that raises K answers `Fault(K)` and latches K. -/
def Obligations.StepRunsTheDecodedInstruction : Prop :=
  ∀ s : State,
    (∀ f : Fault, s.fault = some f → step s = .fault f) ∧
    (s.fault = none → 4095 ≤ s.pc.toNat → step s = .fault .addressOutOfRange) ∧
    (s.fault = none → s.pc.toNat ≤ 4094 →
      step s = exec (decode (wordAt s s.pc.toNat)) s.enterExecute ∧
      s.enterExecute.pc.toNat = s.pc.toNat + 2 ∧ s.enterExecute.kwait = false ∧
      s.enterExecute.started = true ∧ Frame [.pc, .kwait, .started] s s.enterExecute) ∧
    (∀ f : Fault, step s = .fault f → (invokeStep s).1 = .fault f ∧ (invokeStep s).2.fault = some f ∧
      (s.fault = none → (invokeStep s).2.started = true)) ∧
    (∀ t : State, step s = .next t → invokeStep s = (.success, t))

/-- R81: fetch reads the big-endian word at `pc`, faults iff `pc ≥ 4095`, and such a fault leaves
everything but the latch and `started` as it was (the spec derives the last clause from the order of
rule R80). -/
def Obligations.FetchFaultChangesOnlyLatchAndStarted : Prop :=
  ∀ s : State,
    (s.pc.toNat ≤ 4094 → fetch s = .ok (s.mem.read s.pc.toNat ++ s.mem.read (s.pc.toNat + 1))) ∧
    (4095 ≤ s.pc.toNat → fetch s = .error .addressOutOfRange) ∧
    (s.fault = none → 4095 ≤ s.pc.toNat →
      (invokeStep s).1 = .fault .addressOutOfRange ∧
      (invokeStep s).2.fault = some .addressOutOfRange ∧ (invokeStep s).2.started = true ∧
      Frame [.fault, .started] s (invokeStep s).2)

/-- R156 (the spec's decision D9): once a fault is latched every `step` answers it and changes
nothing, every other host operation but `reset` keeps the latch, and `reset` clears it. -/
def Obligations.OnlyResetClearsAFault : Prop :=
  ∀ (s : State) (f : Fault), s.fault = some f →
    hostStep .step s = (.fault f, s) ∧
    (∀ op : HostOp, op ≠ .reset → (hostStep op s).2.fault = some f) ∧
    (hostStep .reset s).2.fault = none

/-- R150: the complete table of faults. The execute stage raises exactly what the table says, and a
cycle of a core without a latched fault raises exactly the fetch's fault or the table's. The row of SKP
and SKNP is "the spec's own extension of the kind to the keypad" (D16). -/
def Obligations.FaultsAreExactlyTheTable : Prop :=
  (∀ (i : Instr) (s : State) (f : Fault), exec i s = .fault f ↔ faultOf i s = some f) ∧
  (∀ (s : State) (f : Fault), s.fault = none →
    (step s = .fault f ↔
      if 4095 ≤ s.pc.toNat then f = .addressOutOfRange else faultOf (nextInstr s) s = some f))

/-- R155: an execute-stage fault is latched, `started` is 1, `pc` has advanced by 2; the stack, `I`,
framebuffer, timers and keypad are unchanged, so are the registers but those DRW (`VF`) and LD VX,[I]
(`V0` to `VX`) could have written, and the bytes of memory but those LD B and LD [I] could have
written. The values left in those places are free values of the model (log entry 5). -/
def Obligations.ExecuteFaultLeavesTheRestAlone : Prop :=
  ∀ (s : State) (f : Fault), s.mem.wf = true → s.fault = none → s.pc.toNat ≤ 4094 → step s = .fault f →
    ∃ t : State, invokeStep s = (.fault f, t) ∧ t.fault = some f ∧ t.started = true ∧
      t.pc.toNat = s.pc.toNat + 2 ∧
      Frame [.fault, .started, .pc, .kwait, .regs, .mem, .draws] s t ∧
      (∀ r : Reg, t.getV r ≠ s.getV r →
        (∃ x y n, nextInstr s = .drw x y n ∧ r = 0xF#4) ∨
        (∃ x, nextInstr s = .ldVxMem x ∧ r.toNat ≤ x.toNat)) ∧
      (∀ a : Nat, t.mem.read a ≠ s.mem.read a → effAddr s 0 ≤ a ∧ a < 4096 ∧
        ((∃ x, nextInstr s = .ldB x ∧ a ≤ effAddr s 2) ∨
         (∃ x, nextInstr s = .ldMemVx x ∧ a ≤ effAddr s x.toNat)))

/-- R192: the conditions it asks of a program are exactly those under which a step succeeds. -/
def Obligations.SafeStepIsExactlyASuccessfulStep : Prop :=
  ∀ s : State, SafeStep s ↔ ∃ t : State, step s = .next t

/-- R63: the decoder is total, so any two bytes give an instruction and no step ends in a refusal. -/
def Obligations.NoStepIsRefused : Prop :=
  (∀ (hi lo : Byte) (rest : List Byte),
    ∃ i : Instr, decodeBytes (hi :: lo :: rest) = .ok (i, rest) ∧ i.wellFormed = true) ∧
  (∀ (i : Instr) (s : State) (r : Refusal), exec i s ≠ .refused r) ∧
  (∀ (s : State) (r : Refusal), step s ≠ .refused r)

/-- R14: the table of `pc` after a cycle, the return address a call pushes, and `pc` after reset. -/
def Obligations.PcAfterACycle : Prop :=
  State.reset.pc = 512#16 ∧
  ∀ s t : State, step s = .next t → t.pc.toNat = pcAfter (nextInstr s) s ∧
    ∀ n : Addr, nextInstr s = .call n →
      ∃ k : Fin 16, k.val = s.sp.val ∧ t.stack[k].toNat = s.pc.toNat + 2

/-- R21, R22, R29, R84: a cycle never decrements a timer and never writes the keypad; `DT` and `ST`
change only by LD DT,VX and LD ST,VX; a successful cycle leaves `started` 1 and no fault. -/
def Obligations.CycleNeverTicksNorWritesKeys : Prop :=
  ∀ s t : State, step s = .next t →
    (t.dt = s.dt ∨ ∃ x, nextInstr s = .ldDtVx x ∧ t.dt = s.getV x) ∧
    (t.st = s.st ∨ ∃ x, nextInstr s = .ldStVx x ∧ t.st = s.getV x) ∧
    SameOn .key s t ∧ t.started = true ∧ t.fault = none

/-- R12: an instruction changes no register but its destinations and, if it is one of the six
instructions that write the flag as a side effect, `VF`. -/
def Obligations.RegistersChangeOnlyAsDestinationOrFlag : Prop :=
  ∀ (i : Instr) (s t : State) (r : Reg), exec i s = .next t → isDest i r = false →
    (r = 0xF#4 → writesFlag i = false) → t.getV r = s.getV r

/-- R13, R16, R98: `I` changes only by LD I, ADD I and LD F; `sp` and the stack entries only by CALL
and RET, and RET leaves the entries. -/
def Obligations.IndexAndStackHaveTheirOwnWriters : Prop :=
  ∀ (i : Instr) (s t : State), exec i s = .next t →
    ((∀ n, i ≠ .ldI n) → (∀ x, i ≠ .addI x) → (∀ x, i ≠ .ldF x) → SameOn .index s t) ∧
    (i ≠ .ret → (∀ n, i ≠ .call n) → SameOn .sp s t) ∧
    ((∀ n, i ≠ .call n) → SameOn .stack s t)

/-- R19, R20: `mem` changes only by LD B and LD [I], `fb` only by CLS and DRW. -/
def Obligations.MemoryAndFramebufferHaveTheirOwnWriters : Prop :=
  ∀ (i : Instr) (s t : State), exec i s = .next t →
    ((∀ x, i ≠ .ldB x) → (∀ x, i ≠ .ldMemVx x) → SameOn .mem s t) ∧
    (i ≠ .cls → (∀ x y n, i ≠ .drw x y n) → SameOn .fb s t)

/-- R168: after a successful cycle `kwait` is 1 exactly when it was an LD VX,K that found no key; it is
0 after reset, and no other host operation changes it. -/
def Obligations.KeypadWaitAfterACycle : Prop :=
  (∀ s t : State, step s = .next t →
    (t.kwait = true ↔ (∃ x, nextInstr s = .ldVxK x) ∧ ∀ k : Nat, s.keyDown k = false)) ∧
  (∀ s : State, (hostStep .reset s).2.kwait = false) ∧
  (∀ (op : HostOp) (s : State), op ≠ .reset → op ≠ .step → (hostStep op s).2.kwait = s.kwait)

/-- R21, R23: no instruction reads `ST` or `kwait`: a run of an instruction on two states that differ
there alone ends in states that differ there alone. -/
def Obligations.SoundTimerAndWaitStatusAreNeverRead : Prop :=
  ∀ (i : Instr) (s t : State) (b : Byte) (c : Bool), exec i s = .next t →
    ∃ u : State, exec i ((s.setSt b).setKwait c) = .next u ∧ Frame [.st, .kwait] t u

/-! ### Control transfer -/

/-- R90: RET. -/
def Obligations.ReturnPopsIntoPc : Prop :=
  decode 0x00EE#16 = .ret ∧
  (∀ (s : State) (k : Fin 16), s.sp.val = k.val + 1 →
    ∃ t : State, exec .ret s = .next t ∧ t.pc = s.stack[k] ∧ t.sp.val = k.val ∧ Frame [.pc, .sp] s t) ∧
  (∀ s : State, s.sp.val = 0 → exec .ret s = .fault .stackUnderflow)

/-- R91: JP NNN. -/
def Obligations.JumpSetsPc : Prop :=
  ∀ nnn : Addr, decode (0x1#4 ++ nnn) = .jp nnn ∧
    ∀ s : State, ∃ t : State, exec (.jp nnn) s = .next t ∧ t.pc.toNat = nnn.toNat ∧ Frame [.pc] s t

/-- R92: CALL NNN. -/
def Obligations.CallPushesPcAndJumps : Prop :=
  ∀ nnn : Addr, decode (0x2#4 ++ nnn) = .call nnn ∧
    (∀ (s : State) (k : Fin 16), s.sp.val = k.val →
      ∃ t : State, exec (.call nnn) s = .next t ∧ t.pc.toNat = nnn.toNat ∧ t.sp.val = k.val + 1 ∧
        t.stack[k] = s.pc ∧ (∀ j : Fin 16, j ≠ k → t.stack[j] = s.stack[j]) ∧
        Frame [.pc, .sp, .stack] s t) ∧
    (∀ s : State, s.sp.val = 16 → exec (.call nnn) s = .fault .stackOverflow)

/-- R93 to R96: the four skips, each on both outcomes; the low nibble of the register skips is
ignored. -/
def Obligations.SkipsAddTwoToPc : Prop :=
  ∀ (x y : Reg) (nn : Byte) (n : Nibble),
    (decode (0x3#4 ++ x ++ nn) = .seImm x nn ∧ decode (0x4#4 ++ x ++ nn) = .sneImm x nn ∧
      decode (0x5#4 ++ x ++ y ++ n) = .seReg x y ∧ decode (0x9#4 ++ x ++ y ++ n) = .sneReg x y) ∧
    ∀ s : State,
      (∃ t : State, exec (.seImm x nn) s = .next t ∧ Frame [.pc] s t ∧
        t.pc = if s.getV x = nn then s.pc + 2#16 else s.pc) ∧
      (∃ t : State, exec (.sneImm x nn) s = .next t ∧ Frame [.pc] s t ∧
        t.pc = if s.getV x ≠ nn then s.pc + 2#16 else s.pc) ∧
      (∃ t : State, exec (.seReg x y) s = .next t ∧ Frame [.pc] s t ∧
        t.pc = if s.getV x = s.getV y then s.pc + 2#16 else s.pc) ∧
      (∃ t : State, exec (.sneReg x y) s = .next t ∧ Frame [.pc] s t ∧
        t.pc = if s.getV x ≠ s.getV y then s.pc + 2#16 else s.pc)

/-- R97: JP V0,NNN, the full sum. -/
def Obligations.JumpWithOffsetAddsV0 : Prop :=
  ∀ nnn : Addr, decode (0xB#4 ++ nnn) = .jpV0 nnn ∧
    ∀ s : State, ∃ t : State, exec (.jpV0 nnn) s = .next t ∧
      t.pc.toNat = nnn.toNat + (s.getV 0x0#4).toNat ∧ Frame [.pc] s t

/-- R99 (which the spec derives from R90 and R92): CALL NNN at `a` and then RET at NNN leave `pc = a
+ 2`, `sp` as before and every stack entry but the dead one; besides, `started` is 1 and `kwait` is
0, as after every cycle. -/
def Obligations.CallThenReturnComesBack : Prop :=
  ∀ (s : State) (nnn : Addr), s.fault = none → s.pc.toNat ≤ 4094 → wordAt s s.pc.toNat = 0x2#4 ++ nnn →
    nnn.toNat ≤ 4094 → wordAt s nnn.toNat = 0x00EE#16 → s.sp.val < 16 →
    ∃ t u : State, step s = .next t ∧ step t = .next u ∧ u.pc.toNat = s.pc.toNat + 2 ∧ u.sp = s.sp ∧
      (∀ k : Fin 16, k.val ≠ s.sp.val → u.stack[k] = s.stack[k]) ∧
      u.started = true ∧ u.kwait = false ∧ Frame [.pc, .stack, .started, .kwait] s u

/-- R152: a push fails exactly when the stack holds 16 entries; from an empty stack any 16 nested calls
succeed and a 17th fails with `StackOverflow`. -/
def Obligations.SixteenNestedCallsThenOverflow : Prop :=
  (∀ (s : State) (w : Word), push s w = .error .stackOverflow ↔ s.sp.val = 16) ∧
  ∀ (s : State) (targets : List Addr), s.sp.val = 0 →
    (targets.length ≤ 16 →
      ∃ t : State, execAll (targets.map .call) s = .next t ∧ t.sp.val = targets.length) ∧
    (16 < targets.length → execAll (targets.map .call) s = .fault .stackOverflow)

/-! ### Registers and arithmetic -/

/-- R100 to R102: LD VX,NN; ADD VX,NN; LD VX,VY. -/
def Obligations.LoadAddImmediateAndMove : Prop :=
  ∀ (x y : Reg) (nn : Byte),
    (decode (0x6#4 ++ x ++ nn) = .ldImm x nn ∧ decode (0x7#4 ++ x ++ nn) = .addImm x nn ∧
      decode (0x8#4 ++ x ++ y ++ 0x0#4) = .ldReg x y) ∧
    ∀ s : State,
      (∃ t : State, exec (.ldImm x nn) s = .next t ∧ t.getV x = nn ∧
        (∀ r : Reg, r ≠ x → t.getV r = s.getV r) ∧ Frame [.regs] s t) ∧
      (∃ t : State, exec (.addImm x nn) s = .next t ∧
        (t.getV x).toNat = ((s.getV x).toNat + nn.toNat) % 256 ∧
        (∀ r : Reg, r ≠ x → t.getV r = s.getV r) ∧ Frame [.regs] s t) ∧
      (∃ t : State, exec (.ldReg x y) s = .next t ∧ t.getV x = s.getV y ∧
        (∀ r : Reg, r ≠ x → t.getV r = s.getV r) ∧ Frame [.regs] s t)

/-- R103 to R105: OR, AND, XOR bit by bit, no flag. -/
def Obligations.LogicIsBitwise : Prop :=
  ∀ x y : Reg,
    (decode (0x8#4 ++ x ++ y ++ 0x1#4) = .orReg x y ∧ decode (0x8#4 ++ x ++ y ++ 0x2#4) = .andReg x y ∧
      decode (0x8#4 ++ x ++ y ++ 0x3#4) = .xorReg x y) ∧
    ∀ s : State,
      (∃ t : State, exec (.orReg x y) s = .next t ∧
        (∀ k < 8, (t.getV x).getLsbD k = ((s.getV x).getLsbD k || (s.getV y).getLsbD k)) ∧
        (∀ r : Reg, r ≠ x → t.getV r = s.getV r) ∧ Frame [.regs] s t) ∧
      (∃ t : State, exec (.andReg x y) s = .next t ∧
        (∀ k < 8, (t.getV x).getLsbD k = ((s.getV x).getLsbD k && (s.getV y).getLsbD k)) ∧
        (∀ r : Reg, r ≠ x → t.getV r = s.getV r) ∧ Frame [.regs] s t) ∧
      (∃ t : State, exec (.xorReg x y) s = .next t ∧
        (∀ k < 8, (t.getV x).getLsbD k = ((s.getV x).getLsbD k ^^ (s.getV y).getLsbD k)) ∧
        (∀ r : Reg, r ≠ x → t.getV r = s.getV r) ∧ Frame [.regs] s t)

/-- R106: ADD VX,VY; the carry is written last, so it wins where X is F. -/
def Obligations.AddSetsCarry : Prop :=
  ∀ x y : Reg, decode (0x8#4 ++ x ++ y ++ 0x4#4) = .addReg x y ∧
    ∀ s : State, ∃ t : State, exec (.addReg x y) s = .next t ∧
      (x ≠ 0xF#4 → (t.getV x).toNat = ((s.getV x).toNat + (s.getV y).toNat) % 256) ∧
      (t.getV 0xF#4).toNat = (if (s.getV x).toNat + (s.getV y).toNat > 255 then 1 else 0) ∧
      (∀ r : Reg, r ≠ x → r ≠ 0xF#4 → t.getV r = s.getV r) ∧ Frame [.regs] s t

/-- R107: SUB VX,VY with its four aliasing cases; `f` is the flag its first line computes. The cases
with F rest on the spec's decision D7 (R112, log entry 13). -/
def Obligations.SubtractSetsNoBorrowFirst : Prop :=
  ∀ x y : Reg, decode (0x8#4 ++ x ++ y ++ 0x5#4) = .sub x y ∧
    ∀ (s : State) (f : Nat), f = (if (s.getV y).toNat ≤ (s.getV x).toNat then 1 else 0) →
      ∃ t : State, exec (.sub x y) s = .next t ∧
        (x ≠ 0xF#4 → y ≠ 0xF#4 → (t.getV x).toNat = ((s.getV x).toNat + 256 - (s.getV y).toNat) % 256 ∧
          (t.getV 0xF#4).toNat = f) ∧
        (x = 0xF#4 → y ≠ 0xF#4 → (t.getV 0xF#4).toNat = (f + 256 - (s.getV y).toNat) % 256) ∧
        (x ≠ 0xF#4 → y = 0xF#4 → (t.getV x).toNat = ((s.getV x).toNat + 256 - f) % 256 ∧
          (t.getV 0xF#4).toNat = f) ∧
        (x = 0xF#4 → y = 0xF#4 → t.getV 0xF#4 = 0#8) ∧
        (∀ r : Reg, r ≠ x → r ≠ 0xF#4 → t.getV r = s.getV r) ∧ Frame [.regs] s t

/-- R109: SUBN VX,VY with its four aliasing cases; `f` is the flag its first line computes. The cases
with F rest on the spec's decision D7 (R112, log entry 13). -/
def Obligations.ReverseSubtractSetsNoBorrowFirst : Prop :=
  ∀ x y : Reg, decode (0x8#4 ++ x ++ y ++ 0x7#4) = .subn x y ∧
    ∀ (s : State) (f : Nat), f = (if (s.getV x).toNat ≤ (s.getV y).toNat then 1 else 0) →
      ∃ t : State, exec (.subn x y) s = .next t ∧
        (x ≠ 0xF#4 → y ≠ 0xF#4 → (t.getV x).toNat = ((s.getV y).toNat + 256 - (s.getV x).toNat) % 256 ∧
          (t.getV 0xF#4).toNat = f) ∧
        (x = 0xF#4 → y ≠ 0xF#4 → (t.getV 0xF#4).toNat = ((s.getV y).toNat + 256 - f) % 256) ∧
        (x ≠ 0xF#4 → y = 0xF#4 → (t.getV x).toNat = (f + 256 - (s.getV x).toNat) % 256 ∧
          (t.getV 0xF#4).toNat = f) ∧
        (x = 0xF#4 → y = 0xF#4 → t.getV 0xF#4 = 0#8) ∧
        (∀ r : Reg, r ≠ x → r ≠ 0xF#4 → t.getV r = s.getV r) ∧ Frame [.regs] s t

/-- R108, R110: SHR VX and SHL VX; the Y field is ignored. The case X = F rests on the spec's decision
D7 (R112, log entry 13). -/
def Obligations.ShiftsMoveOneBitIntoTheFlag : Prop :=
  ∀ x y : Reg,
    (decode (0x8#4 ++ x ++ y ++ 0x6#4) = .shr x ∧ decode (0x8#4 ++ x ++ y ++ 0xE#4) = .shl x) ∧
    ∀ s : State,
      (∃ t : State, exec (.shr x) s = .next t ∧
        (x ≠ 0xF#4 → (t.getV x).toNat = (s.getV x).toNat / 2 ∧
          (t.getV 0xF#4).toNat = (s.getV x).toNat % 2) ∧
        (x = 0xF#4 → t.getV 0xF#4 = 0#8) ∧
        (∀ r : Reg, r ≠ x → r ≠ 0xF#4 → t.getV r = s.getV r) ∧ Frame [.regs] s t) ∧
      (∃ t : State, exec (.shl x) s = .next t ∧
        (x ≠ 0xF#4 → (t.getV x).toNat = 2 * (s.getV x).toNat % 256 ∧
          (t.getV 0xF#4).toNat = (s.getV x).toNat / 128) ∧
        (x = 0xF#4 → (t.getV 0xF#4).toNat = 2 * ((s.getV x).toNat / 128)) ∧
        (∀ r : Reg, r ≠ x → r ≠ 0xF#4 → t.getV r = s.getV r) ∧ Frame [.regs] s t)

/-! ### Index register and memory -/

/-- R120, R121: LD I,NNN and ADD I,VX, the sum modulo 65536 (the spec's decision D11), no flag. -/
def Obligations.SetIndexAndAddToIndex : Prop :=
  ∀ (nnn : Addr) (x : Reg),
    (decode (0xA#4 ++ nnn) = .ldI nnn ∧ decode (0xF#4 ++ x ++ 0x1E#8) = .addI x) ∧
    ∀ s : State,
      (∃ t : State, exec (.ldI nnn) s = .next t ∧ t.index.toNat = nnn.toNat ∧ Frame [.index] s t) ∧
      (∃ t : State, exec (.addI x) s = .next t ∧
        t.index.toNat = (s.index.toNat + (s.getV x).toNat) % 65536 ∧ Frame [.index] s t)

/-- R147 (which the spec takes from general knowledge, log entry 3): LD F,VX for whatever
`FONT_BASE` the platform picks (`Config.fontBase` has no known value, log entry 2). -/
def Obligations.FontIndexIsBasePlusFiveTimesVx : Prop :=
  ∀ x : Reg, decode (0xF#4 ++ x ++ 0x29#8) = .ldF x ∧
    ∀ s : State, ∃ t : State, exec (.ldF x) s = .next t ∧
      t.index.toNat = (Config.fontBase.toNat + 5 * (s.getV x).toNat) % 65536 ∧ Frame [.index] s t

/-- R41, R42: a read of `n ≥ 1` bytes faults iff its last address is at or above 4096 and else gives
the bytes in order; a write of one byte faults iff its address is, and else changes that byte only. -/
def Obligations.MemoryAccessesAreBoundsChecked : Prop :=
  (∀ (s : State) (a n : Nat), 1 ≤ n →
    (4096 ≤ a + n - 1 → memReadBytes s a n = .error .addressOutOfRange) ∧
    (a + n - 1 < 4096 → ∃ bs : List Byte, memReadBytes s a n = .ok bs ∧ bs.length = n ∧
      ∀ k < n, bs[k]? = some (s.mem.read (a + k)))) ∧
  (∀ (s : State) (a : Nat),
    (4096 ≤ a → memReadByte s a = .error .addressOutOfRange) ∧
    (a < 4096 → memReadByte s a = .ok (s.mem.read a)) ∧
    (4096 ≤ a + 1 → memReadWord s a = .error .addressOutOfRange) ∧
    (a + 1 < 4096 → memReadWord s a = .ok (s.mem.read a ++ s.mem.read (a + 1)))) ∧
  (∀ (s : State) (a : Nat) (b : Byte),
    (4096 ≤ a → memWriteByte s a b = .error .addressOutOfRange) ∧
    (a < 4096 → ∃ t : State, memWriteByte s a b = .ok t ∧ Frame [.mem] s t ∧
      (s.mem.wf = true → t.mem.wf = true ∧ ∀ c : Nat, t.mem.read c = if c = a then b else s.mem.read c)))

/-- R122: LD B,VX. The bytes read as stored when memory is canonical, as it is in every run. -/
def Obligations.StoreBcdWritesThreeDigits : Prop :=
  ∀ x : Reg, decode (0xF#4 ++ x ++ 0x33#8) = .ldB x ∧
    (∀ s : State, effAddr s 2 < 4096 →
      ∃ t : State, exec (.ldB x) s = .next t ∧ Frame [.mem] s t ∧
        (s.mem.wf = true →
          (t.mem.read (effAddr s 0)).toNat = (s.getV x).toNat / 100 ∧
          (t.mem.read (effAddr s 1)).toNat = (s.getV x).toNat / 10 % 10 ∧
          (t.mem.read (effAddr s 2)).toNat = (s.getV x).toNat % 10 ∧
          ∀ a : Nat, a < effAddr s 0 ∨ effAddr s 2 < a → t.mem.read a = s.mem.read a)) ∧
    (∀ s : State, 4096 ≤ effAddr s 2 → exec (.ldB x) s = .fault .addressOutOfRange)

/-- R123: LD [I],VX. The bytes read as stored when memory is canonical, as it is in every run. -/
def Obligations.RegisterDumpStoresV0ToVx : Prop :=
  ∀ x : Reg, decode (0xF#4 ++ x ++ 0x55#8) = .ldMemVx x ∧
    (∀ s : State, effAddr s x.toNat < 4096 →
      ∃ t : State, exec (.ldMemVx x) s = .next t ∧ Frame [.mem] s t ∧
        (s.mem.wf = true →
          (∀ r : Reg, r.toNat ≤ x.toNat → t.mem.read (effAddr s r.toNat) = s.getV r) ∧
          ∀ a : Nat, a < effAddr s 0 ∨ effAddr s x.toNat < a → t.mem.read a = s.mem.read a)) ∧
    (∀ s : State, 4096 ≤ effAddr s x.toNat → exec (.ldMemVx x) s = .fault .addressOutOfRange)

/-- R124: LD VX,[I]. -/
def Obligations.RegisterLoadReadsV0ToVx : Prop :=
  ∀ x : Reg, decode (0xF#4 ++ x ++ 0x65#8) = .ldVxMem x ∧
    (∀ s : State, effAddr s x.toNat < 4096 →
      ∃ t : State, exec (.ldVxMem x) s = .next t ∧ Frame [.regs] s t ∧
        (∀ r : Reg, r.toNat ≤ x.toNat → t.getV r = s.mem.read (effAddr s r.toNat)) ∧
        (∀ r : Reg, x.toNat < r.toNat → t.getV r = s.getV r)) ∧
    (∀ s : State, 4096 ≤ effAddr s x.toNat → exec (.ldVxMem x) s = .fault .addressOutOfRange)

/-- R123, R124: what a dump stored, a load from the same `I` brings back, whatever the registers,
flags and everything but `mem` and `I` became in between. -/
def Obligations.LoadAfterDumpRestoresRegisters : Prop :=
  ∀ (x : Reg) (s t u : State), s.mem.wf = true → exec (.ldMemVx x) s = .next t →
    u.mem = t.mem → u.index = s.index →
    ∃ w : State, exec (.ldVxMem x) u = .next w ∧ ∀ r : Reg, r.toNat ≤ x.toNat → w.getV r = s.getV r

/-- R52 (which the spec derives from R40, R50 and R80): after a cycle every byte of memory is the one
its instruction stored there, by a store of digits or a register dump, or else the one before; the
very next fetch reads those bytes, and the very next cycle runs the instruction they make. The
instruction that stores was itself read before its store. -/
def Obligations.StoreIsSeenByTheNextFetch : Prop :=
  ∀ s t : State, s.mem.wf = true → step s = .next t →
    (∀ a : Nat, t.mem.read a = byteAfter (nextInstr s) s a) ∧
    (∀ x : Reg, nextInstr s = .ldB x ∨ nextInstr s = .ldMemVx x → t.pc.toNat = s.pc.toNat + 2) ∧
    (∀ w : Word, t.pc.toNat ≤ 4094 →
      w = byteAfter (nextInstr s) s t.pc.toNat ++ byteAfter (nextInstr s) s (t.pc.toNat + 1) →
      fetch t = .ok w ∧ step t = exec (decode w) t.enterExecute)

/-! ### Random and display -/

/-- R130: RND VX,NN. `Config.rand` is the model's free draw (log entry 1): the statement holds for
every value of it. -/
def Obligations.RandomMasksTheDraw : Prop :=
  ∀ (x : Reg) (nn : Byte), decode (0xC#4 ++ x ++ nn) = .rnd x nn ∧
    ∀ s : State, ∃ t : State, exec (.rnd x nn) s = .next t ∧
      t.getV x = Config.rand s.draws &&& nn ∧ (nn = 0#8 → t.getV x = 0#8) ∧
      (∀ k < 8, nn.getLsbD k = false → (t.getV x).getLsbD k = false) ∧
      t.draws = s.draws + 1 ∧
      (∀ r : Reg, r ≠ x → t.getV r = s.getV r) ∧ Frame [.regs, .draws] s t

/-- R131: CLS. -/
def Obligations.ClearScreenClearsEveryCell : Prop :=
  decode 0x00E0#16 = .cls ∧
  ∀ s : State, ∃ t : State, exec .cls s = .next t ∧ (∀ y x : Nat, t.pixel y x = false) ∧ Frame [.fb] s t

/-- R132, with the three points of the spec's decision D14: DRW VX,VY,N. Every cell is XORed with
the clipped sprite, `VF` is 1 iff a lit cell was erased and else 0, no other register changes; the
fault does not depend on clipping. -/
def Obligations.DrawXorsTheClippedSprite : Prop :=
  ∀ (x y : Reg) (n : Nibble), decode (0xD#4 ++ x ++ y ++ n) = .drw x y n ∧
    (∀ s : State, n = 0x0#4 ∨ s.index.toNat + n.toNat - 1 < 4096 →
      ∃ t : State, exec (.drw x y n) s = .next t ∧
        (∀ row col : Nat, row < 32 → col < 64 →
          t.pixel row col = (s.pixel row col ^^ spriteOn s x y n row col)) ∧
        ((∃ row col : Nat, row < 32 ∧ col < 64 ∧ s.pixel row col = true ∧ spriteOn s x y n row col = true) →
          t.getV 0xF#4 = 1#8) ∧
        ((∀ row col : Nat, row < 32 → col < 64 → s.pixel row col = true → spriteOn s x y n row col = false) →
          t.getV 0xF#4 = 0#8) ∧
        (∀ r : Reg, r ≠ 0xF#4 → t.getV r = s.getV r) ∧ Frame [.regs, .fb] s t) ∧
    (∀ s : State, n ≠ 0x0#4 → 4096 ≤ s.index.toNat + n.toNat - 1 →
      exec (.drw x y n) s = .fault .addressOutOfRange)

/-- R133 (which the spec derives from R132): drawing the same sprite twice at the same place gives
the framebuffer back, and the second `VF` is 1 iff some visible 1-bit of the sprite landed on a cell
that was 0 before the first draw. -/
def Obligations.DrawingTwiceErases : Prop :=
  ∀ (x y : Reg) (n : Nibble) (s t u : State), exec (.drw x y n) s = .next t →
    (∀ row col : Nat, u.pixel row col = t.pixel row col) →
    (u.getV x).toNat % 64 = (s.getV x).toNat % 64 → (u.getV y).toNat % 32 = (s.getV y).toNat % 32 →
    u.index = s.index → (∀ k < n.toNat, u.mem.read (effAddr s k) = s.mem.read (effAddr s k)) →
    ∃ w : State, exec (.drw x y n) u = .next w ∧
      (∀ row col : Nat, w.pixel row col = s.pixel row col) ∧
      (w.getV 0xF#4 = 0#8 ∨ w.getV 0xF#4 = 1#8) ∧
      (w.getV 0xF#4 = 1#8 ↔
        ∃ row col : Nat, row < 32 ∧ col < 64 ∧ spriteOn s x y n row col = true ∧ s.pixel row col = false)

/-! ### Keypad, timers, unrecognised words -/

/-- R141, R142, R148: SKP VX and SKNP VX on both outcomes, and the fault of a key number at or above
16. The spec takes the instructions from general knowledge (log entry 3); the fault is its decision
D16. -/
def Obligations.KeySkipsTestTheKeyVxNames : Prop :=
  ∀ x : Reg,
    (decode (0xE#4 ++ x ++ 0x9E#8) = .skp x ∧ decode (0xE#4 ++ x ++ 0xA1#8) = .sknp x) ∧
    ∀ s : State,
      ((s.getV x).toNat < 16 →
        (∃ t : State, exec (.skp x) s = .next t ∧ Frame [.pc] s t ∧
          t.pc = if s.keyDown (s.getV x).toNat = true then s.pc + 2#16 else s.pc) ∧
        (∃ t : State, exec (.sknp x) s = .next t ∧ Frame [.pc] s t ∧
          t.pc = if s.keyDown (s.getV x).toNat = false then s.pc + 2#16 else s.pc)) ∧
      (16 ≤ (s.getV x).toNat →
        exec (.skp x) s = .fault .addressOutOfRange ∧ exec (.sknp x) s = .fault .addressOutOfRange)

/-- R144: LD VX,K takes the least pressed key, or steps back and waits: the spec's decision D17 (log
entry 3). -/
def Obligations.WaitForKeyTakesTheLeastKey : Prop :=
  ∀ x : Reg, decode (0xF#4 ++ x ++ 0x0A#8) = .ldVxK x ∧
    ∀ s : State,
      (∀ k < 16, s.keyDown k = true → (∀ j < k, s.keyDown j = false) →
        ∃ t : State, exec (.ldVxK x) s = .next t ∧ (t.getV x).toNat = k ∧ t.kwait = false ∧
          (∀ r : Reg, r ≠ x → t.getV r = s.getV r) ∧ Frame [.regs, .kwait] s t) ∧
      ((∀ k < 16, s.keyDown k = false) →
        ∃ t : State, exec (.ldVxK x) s = .next t ∧ t.pc = s.pc - 2#16 ∧ t.kwait = true ∧
          Frame [.pc, .kwait] s t)

/-- R143, R145, R146: LD VX,DT; LD DT,VX; LD ST,VX; the tone is on iff the value written is not 0.
The spec takes the three from general knowledge (log entry 3). -/
def Obligations.TimerTransfers : Prop :=
  ∀ x : Reg,
    (decode (0xF#4 ++ x ++ 0x07#8) = .ldVxDt x ∧ decode (0xF#4 ++ x ++ 0x15#8) = .ldDtVx x ∧
      decode (0xF#4 ++ x ++ 0x18#8) = .ldStVx x) ∧
    ∀ s : State,
      (∃ t : State, exec (.ldVxDt x) s = .next t ∧ t.getV x = s.dt ∧
        (∀ r : Reg, r ≠ x → t.getV r = s.getV r) ∧ Frame [.regs] s t) ∧
      (∃ t : State, exec (.ldDtVx x) s = .next t ∧ t.dt = s.getV x ∧ Frame [.dt] s t) ∧
      (∃ t : State, exec (.ldStVx x) s = .next t ∧ t.st = s.getV x ∧
        (t.tone = true ↔ s.getV x ≠ 0#8) ∧ Frame [.st] s t)

/-- R87: an unrecognised word decodes to `NOP*`, whose execution changes nothing. -/
def Obligations.UnrecognisedWordsChangeNothing : Prop :=
  (∀ w : Word, recognisedWith Config.extOps w = false → decode w = .nop w) ∧
  (∀ (w : Word) (s : State), ∃ t : State, exec (.nop w) s = .next t ∧ Frame [] s t) ∧
  (∀ (s t : State) (w : Word), step s = .next t → nextInstr s = .nop w →
    t.pc.toNat = s.pc.toNat + 2 ∧ t.kwait = false ∧ t.started = true ∧
      Frame [.pc, .kwait, .started] s t)

/-! ### Host operations and whole runs -/

/-- R163: `tick` takes one from each timer that is not 0, and nothing else; `n` ticks take `n`. That the
count stops at 0 is the spec's decision D15. -/
def Obligations.TicksCountDownToZero : Prop :=
  (∀ s : State, ∃ t : State, hostStep .tick s = (.success, t) ∧
    t.dt.toNat = s.dt.toNat - 1 ∧ t.st.toNat = s.st.toNat - 1 ∧ Frame [.dt, .st] s t) ∧
  (∀ (s : State) (n : Nat),
    (runHost (List.replicate n .tick) s).dt.toNat = s.dt.toNat - n ∧
    (runHost (List.replicate n .tick) s).st.toNat = s.st.toNat - n)

/-- R181, R182: `load` copies an image that fits to 512 on and writes nothing else, and reports one that
does not fit and changes nothing. Once a cycle has run it is refused (R183, the spec's decision D22,
log entry 9); that the state stays unchanged then is the model's choice, DESIGN CHOICE (log entry 17):
R183 gives a late `load` no meaning. -/
def Obligations.LoadCopiesTheImageOrChangesNothing : Prop :=
  ∀ (image : List Byte) (s : State),
    (s.started = true → ∃ r : Refusal, hostStep (.load image) s = (.refused r, s)) ∧
    (s.started = false → 3584 < image.length → hostStep (.load image) s = (.imageTooLarge, s)) ∧
    (s.started = false → image.length ≤ 3584 →
      ∃ t : State, hostStep (.load image) s = (.success, t) ∧ Frame [.mem] s t ∧
        (s.mem.wf = true →
          (∀ k < image.length, image[k]? = some (t.mem.read (512 + k))) ∧
          ∀ a : Nat, a < 512 ∨ 512 + image.length ≤ a → t.mem.read a = s.mem.read a))

/-- R166, R180: `set_key` writes one key; `reset` gives every part of the spec's state its reset
value, from every state, and no other operation clears the fault latch or `started`. -/
def Obligations.SetKeyAndReset : Prop :=
  (∀ (k : Fin 16) (b : Bool) (s : State), ∃ t : State, hostStep (.setKey k b) s = (.success, t) ∧
    (∀ j : Nat, t.keyDown j = if j = k.val then b else s.keyDown j) ∧ Frame [.key] s t) ∧
  (∀ s : State, ∃ t : State, hostStep .reset s = (.success, t) ∧ Frame [.draws] State.reset t) ∧
  (∀ (op : HostOp) (s : State), op ≠ .reset →
    (s.started = true → (hostStep op s).2.started = true) ∧
    ∀ f : Fault, s.fault = some f → (hostStep op s).2.fault = some f)

/-- R184: with nothing loaded the core runs 1792 no-ops from 512 on, changing nothing but `pc` and
`started`, and the 1793rd fetch faults. -/
def Obligations.EmptyMemoryRunsNoOpsToTheEnd : Prop :=
  (∀ n ≤ 1792, ∃ t : State, Sys2Proof.core.run n State.reset = .next t ∧ t.pc.toNat = 512 + 2 * n ∧
    Frame [.pc, .started] State.reset t) ∧
  Sys2Proof.core.run 1793 State.reset = .fault .addressOutOfRange

/-- R185: a jump to its own address is a cycle that maps the state to itself, once a cycle has run
and no key wait stands. -/
def Obligations.SelfJumpChangesNothing : Prop :=
  ∀ (s : State) (nnn : Addr), s.fault = none → s.started = true → s.kwait = false →
    s.pc.toNat ≤ 4094 → nnn.toNat = s.pc.toNat → wordAt s s.pc.toNat = 0x1#4 ++ nnn →
    step s = .next s
end

