-- ==== Sys2Proof/Laws/State.lean ====
section
/-!
SUPPORT. Each named update of the state, field by field: the field it writes, and every other field
unchanged.
-/

namespace Sys2Proof.Machine

variable (s : State)

@[simp] theorem State.setV_v (r : Reg) (b : Byte) : (s.setV r b).v = s.v.set r.toNat b r.isLt := rfl
@[simp] theorem State.setV_index (r : Reg) (b : Byte) : (s.setV r b).index = s.index := rfl
@[simp] theorem State.setV_pc (r : Reg) (b : Byte) : (s.setV r b).pc = s.pc := rfl
@[simp] theorem State.setV_stack (r : Reg) (b : Byte) : (s.setV r b).stack = s.stack := rfl
@[simp] theorem State.setV_sp (r : Reg) (b : Byte) : (s.setV r b).sp = s.sp := rfl
@[simp] theorem State.setV_mem (r : Reg) (b : Byte) : (s.setV r b).mem = s.mem := rfl
@[simp] theorem State.setV_fb (r : Reg) (b : Byte) : (s.setV r b).fb = s.fb := rfl
@[simp] theorem State.setV_dt (r : Reg) (b : Byte) : (s.setV r b).dt = s.dt := rfl
@[simp] theorem State.setV_st (r : Reg) (b : Byte) : (s.setV r b).st = s.st := rfl
@[simp] theorem State.setV_key (r : Reg) (b : Byte) : (s.setV r b).key = s.key := rfl
@[simp] theorem State.setV_kwait (r : Reg) (b : Byte) : (s.setV r b).kwait = s.kwait := rfl
@[simp] theorem State.setV_fault (r : Reg) (b : Byte) : (s.setV r b).fault = s.fault := rfl
@[simp] theorem State.setV_started (r : Reg) (b : Byte) : (s.setV r b).started = s.started := rfl
@[simp] theorem State.setV_draws (r : Reg) (b : Byte) : (s.setV r b).draws = s.draws := rfl

@[simp] theorem State.setIndex_v (w : Word) : (s.setIndex w).v = s.v := rfl
@[simp] theorem State.setIndex_index (w : Word) : (s.setIndex w).index = w := rfl
@[simp] theorem State.setIndex_pc (w : Word) : (s.setIndex w).pc = s.pc := rfl
@[simp] theorem State.setIndex_stack (w : Word) : (s.setIndex w).stack = s.stack := rfl
@[simp] theorem State.setIndex_sp (w : Word) : (s.setIndex w).sp = s.sp := rfl
@[simp] theorem State.setIndex_mem (w : Word) : (s.setIndex w).mem = s.mem := rfl
@[simp] theorem State.setIndex_fb (w : Word) : (s.setIndex w).fb = s.fb := rfl
@[simp] theorem State.setIndex_dt (w : Word) : (s.setIndex w).dt = s.dt := rfl
@[simp] theorem State.setIndex_st (w : Word) : (s.setIndex w).st = s.st := rfl
@[simp] theorem State.setIndex_key (w : Word) : (s.setIndex w).key = s.key := rfl
@[simp] theorem State.setIndex_kwait (w : Word) : (s.setIndex w).kwait = s.kwait := rfl
@[simp] theorem State.setIndex_fault (w : Word) : (s.setIndex w).fault = s.fault := rfl
@[simp] theorem State.setIndex_started (w : Word) : (s.setIndex w).started = s.started := rfl
@[simp] theorem State.setIndex_draws (w : Word) : (s.setIndex w).draws = s.draws := rfl

@[simp] theorem State.setPc_v (w : Word) : (s.setPc w).v = s.v := rfl
@[simp] theorem State.setPc_index (w : Word) : (s.setPc w).index = s.index := rfl
@[simp] theorem State.setPc_pc (w : Word) : (s.setPc w).pc = w := rfl
@[simp] theorem State.setPc_stack (w : Word) : (s.setPc w).stack = s.stack := rfl
@[simp] theorem State.setPc_sp (w : Word) : (s.setPc w).sp = s.sp := rfl
@[simp] theorem State.setPc_mem (w : Word) : (s.setPc w).mem = s.mem := rfl
@[simp] theorem State.setPc_fb (w : Word) : (s.setPc w).fb = s.fb := rfl
@[simp] theorem State.setPc_dt (w : Word) : (s.setPc w).dt = s.dt := rfl
@[simp] theorem State.setPc_st (w : Word) : (s.setPc w).st = s.st := rfl
@[simp] theorem State.setPc_key (w : Word) : (s.setPc w).key = s.key := rfl
@[simp] theorem State.setPc_kwait (w : Word) : (s.setPc w).kwait = s.kwait := rfl
@[simp] theorem State.setPc_fault (w : Word) : (s.setPc w).fault = s.fault := rfl
@[simp] theorem State.setPc_started (w : Word) : (s.setPc w).started = s.started := rfl
@[simp] theorem State.setPc_draws (w : Word) : (s.setPc w).draws = s.draws := rfl

@[simp] theorem State.setDt_v (b : Byte) : (s.setDt b).v = s.v := rfl
@[simp] theorem State.setDt_index (b : Byte) : (s.setDt b).index = s.index := rfl
@[simp] theorem State.setDt_pc (b : Byte) : (s.setDt b).pc = s.pc := rfl
@[simp] theorem State.setDt_stack (b : Byte) : (s.setDt b).stack = s.stack := rfl
@[simp] theorem State.setDt_sp (b : Byte) : (s.setDt b).sp = s.sp := rfl
@[simp] theorem State.setDt_mem (b : Byte) : (s.setDt b).mem = s.mem := rfl
@[simp] theorem State.setDt_fb (b : Byte) : (s.setDt b).fb = s.fb := rfl
@[simp] theorem State.setDt_dt (b : Byte) : (s.setDt b).dt = b := rfl
@[simp] theorem State.setDt_st (b : Byte) : (s.setDt b).st = s.st := rfl
@[simp] theorem State.setDt_key (b : Byte) : (s.setDt b).key = s.key := rfl
@[simp] theorem State.setDt_kwait (b : Byte) : (s.setDt b).kwait = s.kwait := rfl
@[simp] theorem State.setDt_fault (b : Byte) : (s.setDt b).fault = s.fault := rfl
@[simp] theorem State.setDt_started (b : Byte) : (s.setDt b).started = s.started := rfl
@[simp] theorem State.setDt_draws (b : Byte) : (s.setDt b).draws = s.draws := rfl

@[simp] theorem State.setSt_v (b : Byte) : (s.setSt b).v = s.v := rfl
@[simp] theorem State.setSt_index (b : Byte) : (s.setSt b).index = s.index := rfl
@[simp] theorem State.setSt_pc (b : Byte) : (s.setSt b).pc = s.pc := rfl
@[simp] theorem State.setSt_stack (b : Byte) : (s.setSt b).stack = s.stack := rfl
@[simp] theorem State.setSt_sp (b : Byte) : (s.setSt b).sp = s.sp := rfl
@[simp] theorem State.setSt_mem (b : Byte) : (s.setSt b).mem = s.mem := rfl
@[simp] theorem State.setSt_fb (b : Byte) : (s.setSt b).fb = s.fb := rfl
@[simp] theorem State.setSt_dt (b : Byte) : (s.setSt b).dt = s.dt := rfl
@[simp] theorem State.setSt_st (b : Byte) : (s.setSt b).st = b := rfl
@[simp] theorem State.setSt_key (b : Byte) : (s.setSt b).key = s.key := rfl
@[simp] theorem State.setSt_kwait (b : Byte) : (s.setSt b).kwait = s.kwait := rfl
@[simp] theorem State.setSt_fault (b : Byte) : (s.setSt b).fault = s.fault := rfl
@[simp] theorem State.setSt_started (b : Byte) : (s.setSt b).started = s.started := rfl
@[simp] theorem State.setSt_draws (b : Byte) : (s.setSt b).draws = s.draws := rfl

@[simp] theorem State.setKwait_v (b : Bool) : (s.setKwait b).v = s.v := rfl
@[simp] theorem State.setKwait_index (b : Bool) : (s.setKwait b).index = s.index := rfl
@[simp] theorem State.setKwait_pc (b : Bool) : (s.setKwait b).pc = s.pc := rfl
@[simp] theorem State.setKwait_stack (b : Bool) : (s.setKwait b).stack = s.stack := rfl
@[simp] theorem State.setKwait_sp (b : Bool) : (s.setKwait b).sp = s.sp := rfl
@[simp] theorem State.setKwait_mem (b : Bool) : (s.setKwait b).mem = s.mem := rfl
@[simp] theorem State.setKwait_fb (b : Bool) : (s.setKwait b).fb = s.fb := rfl
@[simp] theorem State.setKwait_dt (b : Bool) : (s.setKwait b).dt = s.dt := rfl
@[simp] theorem State.setKwait_st (b : Bool) : (s.setKwait b).st = s.st := rfl
@[simp] theorem State.setKwait_key (b : Bool) : (s.setKwait b).key = s.key := rfl
@[simp] theorem State.setKwait_kwait (b : Bool) : (s.setKwait b).kwait = b := rfl
@[simp] theorem State.setKwait_fault (b : Bool) : (s.setKwait b).fault = s.fault := rfl
@[simp] theorem State.setKwait_started (b : Bool) : (s.setKwait b).started = s.started := rfl
@[simp] theorem State.setKwait_draws (b : Bool) : (s.setKwait b).draws = s.draws := rfl

@[simp] theorem State.setStarted_v : s.setStarted.v = s.v := rfl
@[simp] theorem State.setStarted_index : s.setStarted.index = s.index := rfl
@[simp] theorem State.setStarted_pc : s.setStarted.pc = s.pc := rfl
@[simp] theorem State.setStarted_stack : s.setStarted.stack = s.stack := rfl
@[simp] theorem State.setStarted_sp : s.setStarted.sp = s.sp := rfl
@[simp] theorem State.setStarted_mem : s.setStarted.mem = s.mem := rfl
@[simp] theorem State.setStarted_fb : s.setStarted.fb = s.fb := rfl
@[simp] theorem State.setStarted_dt : s.setStarted.dt = s.dt := rfl
@[simp] theorem State.setStarted_st : s.setStarted.st = s.st := rfl
@[simp] theorem State.setStarted_key : s.setStarted.key = s.key := rfl
@[simp] theorem State.setStarted_kwait : s.setStarted.kwait = s.kwait := rfl
@[simp] theorem State.setStarted_fault : s.setStarted.fault = s.fault := rfl
@[simp] theorem State.setStarted_started : s.setStarted.started = true := rfl
@[simp] theorem State.setStarted_draws : s.setStarted.draws = s.draws := rfl

@[simp] theorem State.advanceDraws_v (n : Nat) : (s.advanceDraws n).v = s.v := rfl
@[simp] theorem State.advanceDraws_index (n : Nat) : (s.advanceDraws n).index = s.index := rfl
@[simp] theorem State.advanceDraws_pc (n : Nat) : (s.advanceDraws n).pc = s.pc := rfl
@[simp] theorem State.advanceDraws_stack (n : Nat) : (s.advanceDraws n).stack = s.stack := rfl
@[simp] theorem State.advanceDraws_sp (n : Nat) : (s.advanceDraws n).sp = s.sp := rfl
@[simp] theorem State.advanceDraws_mem (n : Nat) : (s.advanceDraws n).mem = s.mem := rfl
@[simp] theorem State.advanceDraws_fb (n : Nat) : (s.advanceDraws n).fb = s.fb := rfl
@[simp] theorem State.advanceDraws_dt (n : Nat) : (s.advanceDraws n).dt = s.dt := rfl
@[simp] theorem State.advanceDraws_st (n : Nat) : (s.advanceDraws n).st = s.st := rfl
@[simp] theorem State.advanceDraws_key (n : Nat) : (s.advanceDraws n).key = s.key := rfl
@[simp] theorem State.advanceDraws_kwait (n : Nat) : (s.advanceDraws n).kwait = s.kwait := rfl
@[simp] theorem State.advanceDraws_fault (n : Nat) : (s.advanceDraws n).fault = s.fault := rfl
@[simp] theorem State.advanceDraws_started (n : Nat) : (s.advanceDraws n).started = s.started := rfl
@[simp] theorem State.advanceDraws_draws (n : Nat) : (s.advanceDraws n).draws = s.draws + n := rfl

@[simp] theorem State.setMem_v (m : Memory) : (s.setMem m).v = s.v := rfl
@[simp] theorem State.setMem_index (m : Memory) : (s.setMem m).index = s.index := rfl
@[simp] theorem State.setMem_pc (m : Memory) : (s.setMem m).pc = s.pc := rfl
@[simp] theorem State.setMem_stack (m : Memory) : (s.setMem m).stack = s.stack := rfl
@[simp] theorem State.setMem_sp (m : Memory) : (s.setMem m).sp = s.sp := rfl
@[simp] theorem State.setMem_mem (m : Memory) : (s.setMem m).mem = m := rfl
@[simp] theorem State.setMem_fb (m : Memory) : (s.setMem m).fb = s.fb := rfl
@[simp] theorem State.setMem_dt (m : Memory) : (s.setMem m).dt = s.dt := rfl
@[simp] theorem State.setMem_st (m : Memory) : (s.setMem m).st = s.st := rfl
@[simp] theorem State.setMem_key (m : Memory) : (s.setMem m).key = s.key := rfl
@[simp] theorem State.setMem_kwait (m : Memory) : (s.setMem m).kwait = s.kwait := rfl
@[simp] theorem State.setMem_fault (m : Memory) : (s.setMem m).fault = s.fault := rfl
@[simp] theorem State.setMem_started (m : Memory) : (s.setMem m).started = s.started := rfl
@[simp] theorem State.setMem_draws (m : Memory) : (s.setMem m).draws = s.draws := rfl

@[simp] theorem State.latchFault_v (f : Fault) : (s.latchFault f).v = s.v := rfl
@[simp] theorem State.latchFault_index (f : Fault) : (s.latchFault f).index = s.index := rfl
@[simp] theorem State.latchFault_pc (f : Fault) : (s.latchFault f).pc = s.pc := rfl
@[simp] theorem State.latchFault_stack (f : Fault) : (s.latchFault f).stack = s.stack := rfl
@[simp] theorem State.latchFault_sp (f : Fault) : (s.latchFault f).sp = s.sp := rfl
@[simp] theorem State.latchFault_mem (f : Fault) : (s.latchFault f).mem = s.mem := rfl
@[simp] theorem State.latchFault_fb (f : Fault) : (s.latchFault f).fb = s.fb := rfl
@[simp] theorem State.latchFault_dt (f : Fault) : (s.latchFault f).dt = s.dt := rfl
@[simp] theorem State.latchFault_st (f : Fault) : (s.latchFault f).st = s.st := rfl
@[simp] theorem State.latchFault_key (f : Fault) : (s.latchFault f).key = s.key := rfl
@[simp] theorem State.latchFault_kwait (f : Fault) : (s.latchFault f).kwait = s.kwait := rfl
@[simp] theorem State.latchFault_fault (f : Fault) : (s.latchFault f).fault = some f := rfl
@[simp] theorem State.latchFault_started (f : Fault) : (s.latchFault f).started = s.started := rfl
@[simp] theorem State.latchFault_draws (f : Fault) : (s.latchFault f).draws = s.draws := rfl

@[simp] theorem State.clearFb_v : s.clearFb.v = s.v := rfl
@[simp] theorem State.clearFb_index : s.clearFb.index = s.index := rfl
@[simp] theorem State.clearFb_pc : s.clearFb.pc = s.pc := rfl
@[simp] theorem State.clearFb_stack : s.clearFb.stack = s.stack := rfl
@[simp] theorem State.clearFb_sp : s.clearFb.sp = s.sp := rfl
@[simp] theorem State.clearFb_mem : s.clearFb.mem = s.mem := rfl
@[simp] theorem State.clearFb_fb : s.clearFb.fb = Vector.replicate 32 (Vector.replicate 64 false) := rfl
@[simp] theorem State.clearFb_dt : s.clearFb.dt = s.dt := rfl
@[simp] theorem State.clearFb_st : s.clearFb.st = s.st := rfl
@[simp] theorem State.clearFb_key : s.clearFb.key = s.key := rfl
@[simp] theorem State.clearFb_kwait : s.clearFb.kwait = s.kwait := rfl
@[simp] theorem State.clearFb_fault : s.clearFb.fault = s.fault := rfl
@[simp] theorem State.clearFb_started : s.clearFb.started = s.started := rfl
@[simp] theorem State.clearFb_draws : s.clearFb.draws = s.draws := rfl

@[simp] theorem State.enterExecute_v : s.enterExecute.v = s.v := rfl
@[simp] theorem State.enterExecute_index : s.enterExecute.index = s.index := rfl
@[simp] theorem State.enterExecute_pc : s.enterExecute.pc = s.pc + 2#16 := rfl
@[simp] theorem State.enterExecute_stack : s.enterExecute.stack = s.stack := rfl
@[simp] theorem State.enterExecute_sp : s.enterExecute.sp = s.sp := rfl
@[simp] theorem State.enterExecute_mem : s.enterExecute.mem = s.mem := rfl
@[simp] theorem State.enterExecute_fb : s.enterExecute.fb = s.fb := rfl
@[simp] theorem State.enterExecute_dt : s.enterExecute.dt = s.dt := rfl
@[simp] theorem State.enterExecute_st : s.enterExecute.st = s.st := rfl
@[simp] theorem State.enterExecute_key : s.enterExecute.key = s.key := rfl
@[simp] theorem State.enterExecute_kwait : s.enterExecute.kwait = false := rfl
@[simp] theorem State.enterExecute_fault : s.enterExecute.fault = s.fault := rfl
@[simp] theorem State.enterExecute_started : s.enterExecute.started = true := rfl
@[simp] theorem State.enterExecute_draws : s.enterExecute.draws = s.draws := rfl

@[simp] theorem State.setFlag_v (b : Bool) : (s.setFlag b).v = s.v.set flagReg.toNat (flagByte b) flagReg.isLt := rfl
@[simp] theorem State.setFlag_index (b : Bool) : (s.setFlag b).index = s.index := rfl
@[simp] theorem State.setFlag_pc (b : Bool) : (s.setFlag b).pc = s.pc := rfl
@[simp] theorem State.setFlag_stack (b : Bool) : (s.setFlag b).stack = s.stack := rfl
@[simp] theorem State.setFlag_sp (b : Bool) : (s.setFlag b).sp = s.sp := rfl
@[simp] theorem State.setFlag_mem (b : Bool) : (s.setFlag b).mem = s.mem := rfl
@[simp] theorem State.setFlag_fb (b : Bool) : (s.setFlag b).fb = s.fb := rfl
@[simp] theorem State.setFlag_dt (b : Bool) : (s.setFlag b).dt = s.dt := rfl
@[simp] theorem State.setFlag_st (b : Bool) : (s.setFlag b).st = s.st := rfl
@[simp] theorem State.setFlag_key (b : Bool) : (s.setFlag b).key = s.key := rfl
@[simp] theorem State.setFlag_kwait (b : Bool) : (s.setFlag b).kwait = s.kwait := rfl
@[simp] theorem State.setFlag_fault (b : Bool) : (s.setFlag b).fault = s.fault := rfl
@[simp] theorem State.setFlag_started (b : Bool) : (s.setFlag b).started = s.started := rfl
@[simp] theorem State.setFlag_draws (b : Bool) : (s.setFlag b).draws = s.draws := rfl

@[simp] theorem tick_v : (tick s).v = s.v := rfl
@[simp] theorem tick_index : (tick s).index = s.index := rfl
@[simp] theorem tick_pc : (tick s).pc = s.pc := rfl
@[simp] theorem tick_stack : (tick s).stack = s.stack := rfl
@[simp] theorem tick_sp : (tick s).sp = s.sp := rfl
@[simp] theorem tick_mem : (tick s).mem = s.mem := rfl
@[simp] theorem tick_fb : (tick s).fb = s.fb := rfl
@[simp] theorem tick_dt : (tick s).dt = if s.dt = 0#8 then 0#8 else s.dt - 1#8 := rfl
@[simp] theorem tick_st : (tick s).st = if s.st = 0#8 then 0#8 else s.st - 1#8 := rfl
@[simp] theorem tick_key : (tick s).key = s.key := rfl
@[simp] theorem tick_kwait : (tick s).kwait = s.kwait := rfl
@[simp] theorem tick_fault : (tick s).fault = s.fault := rfl
@[simp] theorem tick_started : (tick s).started = s.started := rfl
@[simp] theorem tick_draws : (tick s).draws = s.draws := rfl

@[simp] theorem setKey_v (k : Fin 16) (b : Bool) : (setKey k b s).v = s.v := rfl
@[simp] theorem setKey_index (k : Fin 16) (b : Bool) : (setKey k b s).index = s.index := rfl
@[simp] theorem setKey_pc (k : Fin 16) (b : Bool) : (setKey k b s).pc = s.pc := rfl
@[simp] theorem setKey_stack (k : Fin 16) (b : Bool) : (setKey k b s).stack = s.stack := rfl
@[simp] theorem setKey_sp (k : Fin 16) (b : Bool) : (setKey k b s).sp = s.sp := rfl
@[simp] theorem setKey_mem (k : Fin 16) (b : Bool) : (setKey k b s).mem = s.mem := rfl
@[simp] theorem setKey_fb (k : Fin 16) (b : Bool) : (setKey k b s).fb = s.fb := rfl
@[simp] theorem setKey_dt (k : Fin 16) (b : Bool) : (setKey k b s).dt = s.dt := rfl
@[simp] theorem setKey_st (k : Fin 16) (b : Bool) : (setKey k b s).st = s.st := rfl
@[simp] theorem setKey_key (k : Fin 16) (b : Bool) : (setKey k b s).key = s.key.set k.val b k.isLt := rfl
@[simp] theorem setKey_kwait (k : Fin 16) (b : Bool) : (setKey k b s).kwait = s.kwait := rfl
@[simp] theorem setKey_fault (k : Fin 16) (b : Bool) : (setKey k b s).fault = s.fault := rfl
@[simp] theorem setKey_started (k : Fin 16) (b : Bool) : (setKey k b s).started = s.started := rfl
@[simp] theorem setKey_draws (k : Fin 16) (b : Bool) : (setKey k b s).draws = s.draws := rfl

/-! ### Reading through an update -/

@[simp] theorem getV_setV (r q : Reg) (b : Byte) :
    (s.setV r b).getV q = if q = r then b else s.getV q := by
  have h : (r.toNat = q.toNat) = (q = r) := by
    rw [BitVec.toNat_inj]; exact propext eq_comm
  simp only [State.getV, State.setV, Vector.getElem_set, h]

@[simp] theorem getV_setFlag (q : Reg) (b : Bool) :
    (s.setFlag b).getV q = if q = flagReg then flagByte b else s.getV q := getV_setV ..

@[simp] theorem getV_setIndex (w : Word) (q : Reg) : (s.setIndex w).getV q = s.getV q := rfl
@[simp] theorem getV_setPc (w : Word) (q : Reg) : (s.setPc w).getV q = s.getV q := rfl
@[simp] theorem getV_setDt (b : Byte) (q : Reg) : (s.setDt b).getV q = s.getV q := rfl
@[simp] theorem getV_setSt (b : Byte) (q : Reg) : (s.setSt b).getV q = s.getV q := rfl
@[simp] theorem getV_setKwait (b : Bool) (q : Reg) : (s.setKwait b).getV q = s.getV q := rfl
@[simp] theorem getV_setStarted (q : Reg) : s.setStarted.getV q = s.getV q := rfl
@[simp] theorem getV_advanceDraws (n : Nat) (q : Reg) : (s.advanceDraws n).getV q = s.getV q := rfl
@[simp] theorem getV_setMem (m : Memory) (q : Reg) : (s.setMem m).getV q = s.getV q := rfl
@[simp] theorem getV_latchFault (f : Fault) (q : Reg) : (s.latchFault f).getV q = s.getV q := rfl
@[simp] theorem getV_clearFb (q : Reg) : s.clearFb.getV q = s.getV q := rfl
@[simp] theorem getV_enterExecute (q : Reg) : s.enterExecute.getV q = s.getV q := rfl
@[simp] theorem getV_tick (q : Reg) : (tick s).getV q = s.getV q := rfl
@[simp] theorem getV_setKey (k : Fin 16) (b : Bool) (q : Reg) : (setKey k b s).getV q = s.getV q := rfl
@[simp] theorem pixel_setV (r : Reg) (b : Byte) (y x : Nat) : (s.setV r b).pixel y x = s.pixel y x := rfl
@[simp] theorem pixel_setIndex (w : Word) (y x : Nat) : (s.setIndex w).pixel y x = s.pixel y x := rfl
@[simp] theorem pixel_setPc (w : Word) (y x : Nat) : (s.setPc w).pixel y x = s.pixel y x := rfl
@[simp] theorem pixel_setDt (b : Byte) (y x : Nat) : (s.setDt b).pixel y x = s.pixel y x := rfl
@[simp] theorem pixel_setSt (b : Byte) (y x : Nat) : (s.setSt b).pixel y x = s.pixel y x := rfl
@[simp] theorem pixel_setKwait (b : Bool) (y x : Nat) : (s.setKwait b).pixel y x = s.pixel y x := rfl
@[simp] theorem pixel_setStarted (y x : Nat) : s.setStarted.pixel y x = s.pixel y x := rfl
@[simp] theorem pixel_advanceDraws (n : Nat) (y x : Nat) : (s.advanceDraws n).pixel y x = s.pixel y x := rfl
@[simp] theorem pixel_setMem (m : Memory) (y x : Nat) : (s.setMem m).pixel y x = s.pixel y x := rfl
@[simp] theorem pixel_latchFault (f : Fault) (y x : Nat) : (s.latchFault f).pixel y x = s.pixel y x := rfl
@[simp] theorem pixel_enterExecute (y x : Nat) : s.enterExecute.pixel y x = s.pixel y x := rfl
@[simp] theorem pixel_setFlag (b : Bool) (y x : Nat) : (s.setFlag b).pixel y x = s.pixel y x := rfl
@[simp] theorem pixel_tick (y x : Nat) : (tick s).pixel y x = s.pixel y x := rfl
@[simp] theorem pixel_setKey (k : Fin 16) (b : Bool) (y x : Nat) : (setKey k b s).pixel y x = s.pixel y x := rfl
@[simp] theorem keyDown_setV (r : Reg) (b : Byte) (k : Nat) : (s.setV r b).keyDown k = s.keyDown k := rfl
@[simp] theorem keyDown_setIndex (w : Word) (k : Nat) : (s.setIndex w).keyDown k = s.keyDown k := rfl
@[simp] theorem keyDown_setPc (w : Word) (k : Nat) : (s.setPc w).keyDown k = s.keyDown k := rfl
@[simp] theorem keyDown_setDt (b : Byte) (k : Nat) : (s.setDt b).keyDown k = s.keyDown k := rfl
@[simp] theorem keyDown_setSt (b : Byte) (k : Nat) : (s.setSt b).keyDown k = s.keyDown k := rfl
@[simp] theorem keyDown_setKwait (b : Bool) (k : Nat) : (s.setKwait b).keyDown k = s.keyDown k := rfl
@[simp] theorem keyDown_setStarted (k : Nat) : s.setStarted.keyDown k = s.keyDown k := rfl
@[simp] theorem keyDown_advanceDraws (n : Nat) (k : Nat) : (s.advanceDraws n).keyDown k = s.keyDown k := rfl
@[simp] theorem keyDown_setMem (m : Memory) (k : Nat) : (s.setMem m).keyDown k = s.keyDown k := rfl
@[simp] theorem keyDown_latchFault (f : Fault) (k : Nat) : (s.latchFault f).keyDown k = s.keyDown k := rfl
@[simp] theorem keyDown_clearFb (k : Nat) : s.clearFb.keyDown k = s.keyDown k := rfl
@[simp] theorem keyDown_enterExecute (k : Nat) : s.enterExecute.keyDown k = s.keyDown k := rfl
@[simp] theorem keyDown_setFlag (b : Bool) (k : Nat) : (s.setFlag b).keyDown k = s.keyDown k := rfl
@[simp] theorem keyDown_tick (k : Nat) : (tick s).keyDown k = s.keyDown k := rfl

@[simp] theorem pixel_clearFb_eq (y x : Nat) : s.clearFb.pixel y x = false := by
  simp [State.pixel, State.clearFb]

theorem keyDown_setKey (k : Fin 16) (b : Bool) (j : Nat) :
    (setKey k b s).keyDown j = if j = k.val then b else s.keyDown j := by
  by_cases hj : j < 16
  · simp only [State.keyDown, setKey, hj, dite_true, Vector.getElem_set, eq_comm]
  · simp only [State.keyDown, hj, dite_false]
    rw [if_neg (by omega)]

end Sys2Proof.Machine
end

