-- ==== Sys2Proof/Laws/Display.lean ====
section
/-!
SUPPORT. What drawing changes: one pixel, one row, and which fields it leaves alone
(spec/44_random_display.md rule R132).
-/

namespace Sys2Proof.Machine

variable (s : State)

/-- A toggle inverts its cell and leaves every other cell. -/
theorem pixel_togglePixel (y x b a : Nat) (hy : y < 32) (hx : x < 64) :
    (s.togglePixel y x).pixel b a = if b = y ∧ a = x then !s.pixel b a else s.pixel b a := by
  by_cases hb : b < 32 ∧ a < 64
  · simp only [State.togglePixel, State.pixel, hb, hy, hx, and_self, dite_true, Vector.getElem_set]
    by_cases h1 : y = b
    · subst h1
      by_cases h2 : x = a
      · subst h2; simp
      · simp [h2, Ne.symm h2]
    · simp [h1, Ne.symm h1]
  · have h : ¬(b = y ∧ a = x) := by omega
    rw [if_neg h]
    simp only [State.pixel, hb, dite_false]

/-- A toggle writes the framebuffer only. -/
theorem togglePixel_eq (y x : Nat) : ∃ f, s.togglePixel y x = { s with fb := f } := by
  unfold State.togglePixel
  split
  · exact ⟨_, rfl⟩
  · exact ⟨s.fb, rfl⟩

/-- Drawing a pixel writes `VF` and the framebuffer only. -/
theorem drawPixel_eq (y x : Nat) :
    ∃ f w, drawPixel y x s = { s with fb := f, v := w } ∧
      ∀ r : Reg, r ≠ flagReg → (drawPixel y x s).getV r = s.getV r := by
  unfold drawPixel
  split
  · obtain ⟨f, hf⟩ := togglePixel_eq (if s.pixel y x then s.setFlag true else s) y x
    refine ⟨f, (if s.pixel y x then s.setFlag true else s).v, ?_, ?_⟩
    · rw [hf]; split <;> rfl
    · intro r hr
      rw [hf]
      show (if s.pixel y x then s.setFlag true else s).getV r = s.getV r
      split
      · rw [getV_setFlag, if_neg hr]
      · rfl
  · exact ⟨s.fb, s.v, rfl, fun _ _ => rfl⟩

/-- The framebuffer and the flag apart, two states agree: what drawing keeps. -/
def KeptByDraw (s t : State) : Prop :=
  (∃ f w, t = { s with fb := f, v := w }) ∧ ∀ r : Reg, r ≠ flagReg → t.getV r = s.getV r

theorem KeptByDraw.refl : KeptByDraw s s := ⟨⟨s.fb, s.v, rfl⟩, fun _ _ => rfl⟩

theorem KeptByDraw.trans {s t u : State} (h : KeptByDraw s t) (k : KeptByDraw t u) : KeptByDraw s u := by
  obtain ⟨⟨f, w, rfl⟩, h⟩ := h
  obtain ⟨⟨f', w', rfl⟩, k⟩ := k
  exact ⟨⟨f', w', rfl⟩, fun r hr => (k r hr).trans (h r hr)⟩

theorem keptByDraw_drawPixel (y x : Nat) : KeptByDraw s (drawPixel y x s) := by
  obtain ⟨f, w, h, hr⟩ := drawPixel_eq s y x
  exact ⟨⟨f, w, h⟩, hr⟩

theorem keptByDraw_drawRow (y x0 : Nat) (row : Byte) : KeptByDraw s (drawRow y x0 row s) := by
  unfold drawRow
  split
  · generalize List.range 8 = cs
    induction cs generalizing s with
    | nil => exact .refl s
    | cons c cs ih =>
      simp only [List.foldl_cons]
      split
      · exact (keptByDraw_drawPixel ..).trans (ih _)
      · exact ih _
  · exact .refl s

/-- Drawing a sprite writes `VF` and the framebuffer only. -/
theorem keptByDraw_drawRows (y x0 : Nat) (rows : List Byte) : KeptByDraw s (drawRows y x0 rows s) := by
  induction rows generalizing s y with
  | nil => exact .refl s
  | cons row rows ih => exact (keptByDraw_drawRow ..).trans (ih _ _)

/-- One visible sprite pixel: its cell toggles, and `VF` becomes 1 if the cell was lit. -/
theorem drawPixel_visible (y x : Nat) (hy : y < 32) (hx : x < 64) :
    (∀ b a, (drawPixel y x s).pixel b a = if b = y ∧ a = x then !s.pixel b a else s.pixel b a) ∧
      (drawPixel y x s).getV flagReg = if s.pixel y x then 1#8 else s.getV flagReg := by
  unfold drawPixel
  rw [if_pos (by omega)]
  constructor
  · intro b a
    have h : (if s.pixel y x then s.setFlag true else s).pixel b a = s.pixel b a := by split <;> rfl
    rw [pixel_togglePixel _ _ _ _ _ hy hx, h]
  · obtain ⟨f, hf⟩ := togglePixel_eq (if s.pixel y x then s.setFlag true else s) y x
    rw [hf]
    show (if s.pixel y x then s.setFlag true else s).getV flagReg = _
    split
    · rw [getV_setFlag, if_pos rfl]; rfl
    · rfl

/-- A pixel beyond column 63 is clipped. -/
theorem drawPixel_clipped (y x : Nat) (hx : 64 ≤ x) : drawPixel y x s = s := by
  unfold drawPixel
  rw [if_neg (by omega)]

end Sys2Proof.Machine
end

