-- ==== Sys2Proof/Laws/Encoding.lean ====
section
/-!
SUPPORT. The fields of a word put together from fields (spec/30_encoding.md rule R61), and the two
bytes of a word.
-/

namespace Sys2Proof

/-! ### Fields of a concatenation -/

theorem extract_above {m n : Nat} (a : BitVec m) (b : BitVec n) (start len : Nat) (h : n ≤ start) :
    (a ++ b).extractLsb' start len = a.extractLsb' (start - n) len := by
  rw [BitVec.extractLsb'_append_eq_ite, dif_neg (by omega)]

theorem extract_within {m n : Nat} (a : BitVec m) (b : BitVec n) (start len : Nat)
    (h : start + len ≤ n) (h0 : 0 < len) :
    (a ++ b).extractLsb' start len = b.extractLsb' start len := by
  rw [BitVec.extractLsb'_append_eq_ite, dif_pos (by omega), dif_pos h]

theorem extract_all {n : Nat} (a : BitVec n) : a.extractLsb' 0 n = a := by simp

/-! ### Layout `op NNN` -/

theorem opOf_nnn (a : Nibble) (n : Addr) : opOf (a ++ n) = a :=
  (extract_above a n 12 4 (by omega)).trans (extract_all a)

theorem nnnOf_nnn (a : Nibble) (n : Addr) : nnnOf (a ++ n) = n :=
  (extract_within a n 0 12 (by omega) (by omega)).trans (extract_all n)

/-! ### Layout `op X NN` -/

theorem opOf_xnn (a : Nibble) (x : Reg) (n : Byte) : opOf (a ++ x ++ n) = a :=
  (extract_above (a ++ x) n 12 4 (by omega)).trans
    ((extract_above a x 4 4 (by omega)).trans (extract_all a))

theorem xOf_xnn (a : Nibble) (x : Reg) (n : Byte) : xOf (a ++ x ++ n) = x :=
  (extract_above (a ++ x) n 8 4 (by omega)).trans
    ((extract_within a x 0 4 (by omega) (by omega)).trans (extract_all x))

theorem nnOf_xnn (a : Nibble) (x : Reg) (n : Byte) : nnOf (a ++ x ++ n) = n :=
  (extract_within (a ++ x) n 0 8 (by omega) (by omega)).trans (extract_all n)

/-! ### Layout `op X Y N` -/

theorem opOf_xyn (a : Nibble) (x y : Reg) (n : Nibble) : opOf (a ++ x ++ y ++ n) = a :=
  (extract_above (a ++ x ++ y) n 12 4 (by omega)).trans
    ((extract_above (a ++ x) y 8 4 (by omega)).trans
      ((extract_above a x 4 4 (by omega)).trans (extract_all a)))

theorem xOf_xyn (a : Nibble) (x y : Reg) (n : Nibble) : xOf (a ++ x ++ y ++ n) = x :=
  (extract_above (a ++ x ++ y) n 8 4 (by omega)).trans
    ((extract_above (a ++ x) y 4 4 (by omega)).trans
      ((extract_within a x 0 4 (by omega) (by omega)).trans (extract_all x)))

theorem yOf_xyn (a : Nibble) (x y : Reg) (n : Nibble) : yOf (a ++ x ++ y ++ n) = y :=
  (extract_above (a ++ x ++ y) n 4 4 (by omega)).trans
    ((extract_within (a ++ x) y 0 4 (by omega) (by omega)).trans (extract_all y))

theorem nOf_xyn (a : Nibble) (x y : Reg) (n : Nibble) : nOf (a ++ x ++ y ++ n) = n :=
  (extract_within (a ++ x ++ y) n 0 4 (by omega) (by omega)).trans (extract_all n)

/-! ### Bytes of a word -/

theorem wordOfBytes_hi_lo (w : Word) : wordOfBytes (hiByte w) (loByte w) = w := by
  have h := BitVec.extractLsb'_append_extractLsb'_eq_extractLsb' (x := w) (start₁ := 0) (start₂ := 8)
    (len₁ := 8) (len₂ := 8) rfl
  exact h.trans (extract_all w)

theorem hiByte_wordOfBytes (hi lo : Byte) : hiByte (wordOfBytes hi lo) = hi :=
  (extract_above hi lo 8 8 (by omega)).trans (extract_all hi)

theorem loByte_wordOfBytes (hi lo : Byte) : loByte (wordOfBytes hi lo) = lo :=
  (extract_within hi lo 0 8 (by omega) (by omega)).trans (extract_all lo)

/-- A word laid out in memory order decodes as itself. -/
theorem decodeBytes_bytes (w : Word) (rest : List Byte) :
    decodeBytes (hiByte w :: loByte w :: rest) = .ok (decode w, rest) := by
  rw [decodeBytes, wordOfBytes_hi_lo]

theorem decodeTableWord_eq (nbits w : Nat) :
    decodeTableWord nbits w = some (decode (tableWord nbits w)) := by
  rw [decodeTableWord, decodeBytes_bytes]

end Sys2Proof
end

