-- ==== Sys2Proof/Laws/Memory.lean ====
section
/-!
SUPPORT. Memory: what a write does to every read, and that every operation keeps the canonical form.
-/

namespace Sys2Proof.Machine

/-! ### The canonical form -/

theorem Memory.wf_nil : Memory.wf [] = true := rfl

theorem Memory.wf_cons (k : Nat) (b : Byte) (m : Memory) :
    Memory.wf ((k, b) :: m) = true ↔
      k < Config.memSize ∧ b ≠ 0#8 ∧ Memory.above (k + 1) m = true ∧ Memory.wf m = true := by
  simp [Memory.wf, and_assoc]

theorem Memory.above_cons (lo k : Nat) (b : Byte) (m : Memory) :
    Memory.above lo ((k, b) :: m) = true ↔ lo ≤ k ∧ Memory.above lo m = true := by
  simp [Memory.above]

theorem Memory.above_mono {lo hi : Nat} (h : lo ≤ hi) {m : Memory} (hm : Memory.above hi m = true) :
    Memory.above lo m = true := by
  simp only [Memory.above, List.all_eq_true, decide_eq_true_eq] at *
  exact fun c hc => h.trans (hm c hc)

theorem Memory.read_of_above {lo a : Nat} {m : Memory} (hm : Memory.above lo m = true) (h : a < lo) :
    Memory.read m a = 0#8 := by
  induction m with
  | nil => rfl
  | cons c m ih =>
    obtain ⟨k, b⟩ := c
    rw [Memory.above_cons] at hm
    simp only [Memory.read]
    rw [if_neg (by omega), ih hm.2]

theorem Memory.above_put {lo a : Nat} {b : Byte} {m : Memory} (ha : lo ≤ a)
    (hm : Memory.above lo m = true) : Memory.above lo (Memory.put a b m) = true := by
  unfold Memory.put
  split
  · exact hm
  · exact (Memory.above_cons ..).2 ⟨ha, hm⟩

theorem Memory.above_write {lo a : Nat} {b : Byte} {m : Memory} (ha : lo ≤ a)
    (hm : Memory.above lo m = true) : Memory.above lo (Memory.write m a b) = true := by
  induction m with
  | nil => exact Memory.above_put ha rfl
  | cons c m ih =>
    obtain ⟨k, c⟩ := c
    have hk := (Memory.above_cons ..).1 hm
    simp only [Memory.write]
    split
    · exact Memory.above_put ha hm
    · split
      · exact Memory.above_put ha hk.2
      · exact (Memory.above_cons ..).2 ⟨hk.1, ih hk.2⟩

theorem Memory.wf_put {a : Nat} {b : Byte} {m : Memory} (ha : a < Config.memSize)
    (hm : Memory.wf m = true) (h : Memory.above (a + 1) m = true) : Memory.wf (Memory.put a b m) = true := by
  unfold Memory.put
  split
  · exact hm
  · exact (Memory.wf_cons ..).2 ⟨ha, ‹_›, h, hm⟩

/-- A write inside memory keeps the canonical form. -/
theorem Memory.wf_write {a : Nat} {b : Byte} {m : Memory} (hm : Memory.wf m = true)
    (ha : a < Config.memSize) : Memory.wf (Memory.write m a b) = true := by
  induction m with
  | nil => exact Memory.wf_put ha rfl rfl
  | cons c m ih =>
    obtain ⟨k, c⟩ := c
    obtain ⟨hk, hc, hab, hwf⟩ := (Memory.wf_cons ..).1 hm
    simp only [Memory.write]
    split
    · refine Memory.wf_put ha hm ((Memory.above_cons ..).2 ⟨by omega, ?_⟩)
      exact Memory.above_mono (by omega) hab
    · split
      · subst_vars
        exact Memory.wf_put ha hwf hab
      · exact (Memory.wf_cons ..).2 ⟨hk, hc, Memory.above_write (by omega) hab, ih hwf⟩

/-- Copying bytes inside memory keeps the canonical form. -/
theorem Memory.wf_writeList {a : Nat} {bs : List Byte} {m : Memory} (hm : Memory.wf m = true)
    (ha : a + bs.length ≤ Config.memSize) : Memory.wf (Memory.writeList m a bs) = true := by
  induction bs generalizing a m with
  | nil => exact hm
  | cons b bs ih =>
    simp only [List.length_cons] at ha
    exact ih (Memory.wf_write hm (by omega)) (by omega)

/-! ### Reads after writes -/

theorem Memory.read_put {a c : Nat} {b : Byte} {m : Memory} (h : Memory.above (a + 1) m = true) :
    Memory.read (Memory.put a b m) c = if c = a then b else Memory.read m c := by
  unfold Memory.put
  split
  · rename_i hb
    by_cases hc : c = a
    · rw [if_pos hc, hb, Memory.read_of_above h (by omega)]
    · rw [if_neg hc]
  · rfl

/-- A write changes the byte at its address and no other (rule R42). -/
theorem Memory.read_write {a c : Nat} {b : Byte} {m : Memory} (hm : Memory.wf m = true) :
    Memory.read (Memory.write m a b) c = if c = a then b else Memory.read m c := by
  induction m with
  | nil => exact Memory.read_put rfl
  | cons e m ih =>
    obtain ⟨k, e⟩ := e
    obtain ⟨-, -, hab, hwf⟩ := (Memory.wf_cons ..).1 hm
    simp only [Memory.write]
    split
    · refine Memory.read_put ((Memory.above_cons ..).2 ⟨by omega, ?_⟩)
      exact Memory.above_mono (by omega) hab
    · split
      · subst_vars
        rw [Memory.read_put hab]
        simp only [Memory.read]
        split <;> rfl
      · simp only [Memory.read, ih hwf]
        split
        · rw [if_neg (by omega)]
        · rfl

/-- Copying bytes changes the bytes at their addresses and no other. -/
theorem Memory.read_writeList {a c : Nat} {bs : List Byte} {m : Memory} (hm : Memory.wf m = true)
    (ha : a + bs.length ≤ Config.memSize) :
    Memory.read (Memory.writeList m a bs) c =
      if a ≤ c ∧ c < a + bs.length then bs.getD (c - a) 0#8 else Memory.read m c := by
  induction bs generalizing a m with
  | nil => rw [if_neg (by simp only [List.length_nil]; omega)]; rfl
  | cons b bs ih =>
    simp only [List.length_cons] at ha ⊢
    rw [Memory.writeList, ih (Memory.wf_write hm (by omega)) (by omega), Memory.read_write hm]
    by_cases h1 : c = a
    · subst h1
      rw [if_neg (by omega), if_pos rfl, if_pos (by omega)]
      simp
    · by_cases h2 : a + 1 ≤ c ∧ c < a + 1 + bs.length
      · rw [if_pos h2, if_pos (by omega)]
        obtain ⟨j, hj⟩ : ∃ j, c - a = j + 1 := ⟨c - a - 1, by omega⟩
        rw [hj, show c - (a + 1) = j by omega]
        simp
      · rw [if_neg h2, if_neg h1, if_neg (by omega)]

/-! ### The checked accesses (rules R41, R42) -/

theorem memReadByte_eq (s : State) (a : Nat) :
    memReadByte s a = if a < 4096 then .ok (s.mem.read a) else .error .addressOutOfRange := rfl

theorem memReadWord_eq (s : State) (a : Nat) :
    memReadWord s a = if a + 1 < 4096 then .ok (wordOfBytes (s.mem.read a) (s.mem.read (a + 1)))
      else .error .addressOutOfRange := rfl

theorem memReadBytes_eq (s : State) (a n : Nat) :
    memReadBytes s a n = if a + n ≤ 4096 then .ok ((List.range n).map fun k => s.mem.read (a + k))
      else .error .addressOutOfRange := rfl

/-- A sequence of writes either puts all its bytes in `mem` and changes nothing else, or reaches an
address outside memory. -/
theorem memWriteBytes_eq (s : State) (a : Nat) (bs : List Byte) (ha : a ≤ 4096 ∨ bs ≠ []) :
    memWriteBytes s a bs = if a + bs.length ≤ 4096 then .ok (s.setMem (s.mem.writeList a bs))
      else .error .addressOutOfRange := by
  induction bs generalizing s a with
  | nil =>
    rw [if_pos (by simpa using ha)]
    rfl
  | cons b bs ih =>
    simp only [memWriteBytes, memWriteByte, List.length_cons]
    by_cases h : a < Config.memSize
    · simp only [if_pos h]
      rw [ih _ _ (.inl h)]
      have : (a + 1 + bs.length ≤ 4096) = (a + (bs.length + 1) ≤ 4096) := by
        rw [Nat.add_comm bs.length, Nat.add_assoc]
      simp only [this]
      rfl
    · simp only [if_neg h]
      rw [if_neg]
      simp only [Config.memSize] at h
      omega

/-- Reset memory has the canonical form. -/
theorem reset_mem_wf : State.reset.mem.wf = true := rfl

end Sys2Proof.Machine
end

