-- ==== Sys2Proof/Laws/Ops.lean ====
section
/-!
SUPPORT. What each shared operation can do, said once: faults, call stack, operands, skips, fetch.
-/

namespace Sys2Proof.Machine

variable (s : State)

/-! ### Raising and going on -/

@[simp] theorem bindFault_ok {α : Type} (a : α) (k : α → Result) : bindFault (.ok a) k = k a := rfl

@[simp] theorem bindFault_error {α : Type} (f : Fault) (k : α → Result) :
    bindFault (.error f) k = .fault f := rfl

/-- A checked access that goes on has succeeded. -/
theorem bindFault_next {α : Type} {r : Except Fault α} {k : α → Result} {t : State}
    (h : bindFault r k = .next t) : ∃ a, r = .ok a ∧ k a = .next t := by
  cases r with
  | ok a => exact ⟨a, rfl, h⟩
  | error f => exact absurd h (by simp [bindFault, raise])

/-! ### Call stack (rules R17, R18) -/

theorem push_full (w : Word) (h : s.sp.val = 16) : push s w = .error .stackOverflow := by
  rw [push, dif_neg (by omega)]

theorem pop_empty (h : s.sp.val = 0) : pop s = .error .stackUnderflow := by
  rw [pop, if_neg (by omega)]

theorem push_ok (w : Word) (h : s.sp.val < 16) :
    push s w = .ok { s with stack := s.stack.set s.sp.val w h, sp := ⟨s.sp.val + 1, Nat.succ_lt_succ h⟩ } := by
  rw [push, dif_pos h]

theorem pop_ok (h : 0 < s.sp.val) :
    pop s = .ok ({ s with sp := ⟨s.sp.val - 1, Nat.lt_of_le_of_lt (Nat.sub_le _ _) s.sp.isLt⟩ },
      s.stack[s.sp.val - 1]'(by omega)) := by
  rw [pop, if_pos h]

/-! ### Skips (rule R98) -/

/-- A skip changes `pc` only. -/
theorem skipIf_eq (c : Bool) : skipIf c s = s.setPc (if c then s.pc + 2#16 else s.pc) := by
  unfold skipIf
  split <;> rfl

/-! ### Register lists (rules R123, R124) -/

theorem regsUpTo_length (x : Reg) : (regsUpTo s x).length = x.toNat + 1 := by
  simp [regsUpTo, regCount]

theorem regsUpTo_getD (x : Reg) (k : Nat) (h : k ≤ x.toNat) :
    (regsUpTo s x).getD k 0#8 = s.getV (BitVec.ofNat 4 k) := by
  have : k < x.toNat + 1 := by omega
  simp [regsUpTo, regCount, List.getD_eq_getElem?_getD, this]

/-- Loading registers in order writes those registers and nothing else. -/
theorem setRegsFrom_eq (k : Nat) (bs : List Byte) : ∃ w, setRegsFrom s k bs = { s with v := w } := by
  induction bs generalizing s k with
  | nil => exact ⟨s.v, rfl⟩
  | cons b bs ih => exact (ih (s.setV (BitVec.ofNat 4 k) b) (k + 1)).imp fun w hw => hw

theorem getV_setRegsFrom (k : Nat) (bs : List Byte) (h : k + bs.length ≤ 16) (r : Reg) :
    (setRegsFrom s k bs).getV r =
      if k ≤ r.toNat ∧ r.toNat < k + bs.length then bs.getD (r.toNat - k) 0#8 else s.getV r := by
  induction bs generalizing s k with
  | nil => rw [if_neg (by simp only [List.length_nil]; omega)]; rfl
  | cons b bs ih =>
    simp only [List.length_cons] at h ⊢
    rw [setRegsFrom, ih _ _ (by omega), getV_setV]
    have hr : (r = BitVec.ofNat 4 k) ↔ r.toNat = k := by
      rw [← BitVec.toNat_inj, BitVec.toNat_ofNat, Nat.mod_eq_of_lt (by omega)]
    by_cases h1 : r.toNat = k
    · rw [if_neg (by omega), if_pos (hr.2 h1), if_pos (by omega)]
      simp [h1]
    · by_cases h2 : k + 1 ≤ r.toNat ∧ r.toNat < k + 1 + bs.length
      · rw [if_pos h2, if_pos (by omega)]
        obtain ⟨j, hj⟩ : ∃ j, r.toNat - k = j + 1 := ⟨r.toNat - k - 1, by omega⟩
        rw [hj, show r.toNat - (k + 1) = j by omega]
        simp
      · rw [if_neg h2, if_neg (mt hr.1 h1), if_neg (by omega)]

/-! ### Keypad (rules R144, R148) -/

theorem keyOperand_eq (x : Reg) : keyOperand s x =
    if (s.getV x).toNat < 16 then .ok (s.getV x).toNat else .error .addressOutOfRange := rfl

theorem leastKey_none : leastKey s = none ↔ ∀ k < 16, s.keyDown k = false := by
  simp [leastKey]

/-- The least pressed key is pressed, and no lower key is. -/
theorem leastKey_some (k : Nat) :
    leastKey s = some k ↔ k < 16 ∧ s.keyDown k = true ∧ ∀ j < k, s.keyDown j = false := by
  simp only [leastKey, List.find?_range_eq_some, List.mem_range]
  constructor
  · rintro ⟨h1, h2, h3⟩
    exact ⟨h2, h1, fun j hj => by simpa using h3 j hj⟩
  · rintro ⟨h1, h2, h3⟩
    exact ⟨h2, h1, fun j hj => by simpa using h3 j hj⟩

/-! ### Fetch and the cycle (rules R80, R81) -/

theorem fetch_eq : fetch s = if s.pc.toNat + 1 < 4096 then
      .ok (wordOfBytes (s.mem.read s.pc.toNat) (s.mem.read (s.pc.toNat + 1)))
    else .error .addressOutOfRange := rfl

/-- A cycle that answers a next state had no latched fault, fetched a word and ran its instruction. -/
theorem cycleWith_next {s t : State} {ext : Bool} (h : cycleWith ext s = .next t) :
    s.fault = none ∧ s.pc.toNat ≤ 4094 ∧
      exec (decodeWith ext (wordOfBytes (s.mem.read s.pc.toNat) (s.mem.read (s.pc.toNat + 1))))
        s.enterExecute = .next t := by
  unfold cycleWith at h
  split at h
  · exact absurd h (by simp [raise])
  · rename_i hf
    obtain ⟨w, hw, ht⟩ := bindFault_next h
    rw [fetch_eq] at hw
    split at hw
    · cases hw
      exact ⟨hf, by omega, ht⟩
    · cases hw

end Sys2Proof.Machine
end

