-- ==== Sys2Proof/Laws/Exec.lean ====
section
/-!
SUPPORT. What one instruction can do, said once: if `exec` answers a next state, it is the one named
here. Claims over all instructions are read off from this table instead of unfolding `exec` again.
-/

namespace Sys2Proof.Machine

/-- Effective addresses of one base. -/
theorem effAddr_add (s : State) (k : Nat) : effAddr s k = effAddr s 0 + k := by simp [effAddr]

theorem toNat_zextAddr (n : Addr) : (zextAddr n).toNat = n.toNat := by
  have := n.isLt
  simp only [zextAddr, BitVec.toNat_setWidth]
  omega

theorem toNat_zextByte (b : Byte) : (zextByte b).toNat = b.toNat := by
  have := b.isLt
  simp only [zextByte, BitVec.toNat_setWidth]
  omega

/-- The next state of each instruction, with the condition under which there is one. -/
def Effect (i : Instr) (s t : State) : Prop :=
  match i with
  | .cls => t = s.clearFb
  | .ret => ∃ h : 0 < s.sp.val,
      t = State.setPc { s with sp := ⟨s.sp.val - 1, Nat.lt_of_le_of_lt (Nat.sub_le _ _) s.sp.isLt⟩ }
        (s.stack[s.sp.val - 1]'(by omega))
  | .jp n => t = s.setPc (zextAddr n)
  | .call n => ∃ h : s.sp.val < 16,
      t = State.setPc { s with stack := s.stack.set s.sp.val s.pc h, sp := ⟨s.sp.val + 1, Nat.succ_lt_succ h⟩ }
        (zextAddr n)
  | .seImm x nn => t = skipIf (s.getV x == nn) s
  | .sneImm x nn => t = skipIf (s.getV x != nn) s
  | .seReg x y => t = skipIf (s.getV x == s.getV y) s
  | .ldImm x nn => t = s.setV x nn
  | .addImm x nn => t = s.setV x (s.getV x + nn)
  | .ldReg x y => t = s.setV x (s.getV y)
  | .orReg x y => t = s.setV x (s.getV x ||| s.getV y)
  | .andReg x y => t = s.setV x (s.getV x &&& s.getV y)
  | .xorReg x y => t = s.setV x (s.getV x ^^^ s.getV y)
  | .addReg x y => t = (s.setV x (s.getV x + s.getV y)).setFlag (carryOut (s.getV x) (s.getV y))
  | .sub x y => t = subInto x x y (s.setFlag (noBorrow (s.getV x) (s.getV y)))
  | .shr x => t = (s.setFlag (lowBit (s.getV x))).setV x ((s.setFlag (lowBit (s.getV x))).getV x >>> 1)
  | .subn x y => t = subInto x y x (s.setFlag (noBorrow (s.getV y) (s.getV x)))
  | .shl x => t = (s.setFlag (highBit (s.getV x))).setV x ((s.setFlag (highBit (s.getV x))).getV x <<< 1)
  | .sneReg x y => t = skipIf (s.getV x != s.getV y) s
  | .ldI n => t = s.setIndex (zextAddr n)
  | .jpV0 n => t = s.setPc (zextAddr n + zextByte (s.getV 0#4))
  | .rnd x nn => t = (s.setV x (Config.rand s.draws &&& nn)).advanceDraws 1
  | .drw x y n => (n ≠ 0#4 → effAddr s n.toNat ≤ 4096) ∧
      t = drawRows (originY s y) (originX s x) ((List.range n.toNat).map fun k => s.mem.read (effAddr s k))
        (s.setFlag false)
  | .skp x => (s.getV x).toNat < 16 ∧ t = skipIf (s.keyDown (s.getV x).toNat) s
  | .sknp x => (s.getV x).toNat < 16 ∧ t = skipIf (!s.keyDown (s.getV x).toNat) s
  | .ldVxDt x => t = s.setV x s.dt
  | .ldVxK x => (∃ k, leastKey s = some k ∧ t = (s.setV x (BitVec.ofNat 8 k)).setKwait false) ∨
      (leastKey s = none ∧ t = (s.setPc (s.pc - 2#16)).setKwait true)
  | .ldDtVx x => t = s.setDt (s.getV x)
  | .ldStVx x => t = s.setSt (s.getV x)
  | .addI x => t = s.setIndex (s.index + zextByte (s.getV x))
  | .ldF x => t = s.setIndex (zextAddr Config.fontBase + 5#16 * zextByte (s.getV x))
  | .ldB x => effAddr s 2 < 4096 ∧ t = s.setMem (s.mem.writeList (effAddr s 0) (bcdDigits (s.getV x)))
  | .ldMemVx x => effAddr s x.toNat < 4096 ∧ t = s.setMem (s.mem.writeList (effAddr s 0) (regsUpTo s x))
  | .ldVxMem x => effAddr s x.toNat < 4096 ∧
      t = setRegsFrom s 0 ((List.range (x.toNat + 1)).map fun k => s.mem.read (effAddr s k))
  | .nop _ => t = s

/-! ### What a store leaves in memory -/

/-- The advance changes nothing a store depends on. -/
@[simp] theorem byteAfter_enterExecute (i : Instr) (s : State) (a : Nat) :
    byteAfter i s.enterExecute a = byteAfter i s a := by
  cases i <;> rfl

/-- Where an instruction stores nothing the byte stays. -/
theorem byteAfter_of_none {i : Instr} {s : State} {a : Nat} (h : storedByte i s a = none) :
    byteAfter i s a = s.mem.read a := by
  rw [byteAfter, h, Option.getD_none]

/-- Where an instruction stores, its byte is there. -/
theorem byteAfter_of_some {i : Instr} {s : State} {a : Nat} {b : Byte} (h : storedByte i s a = some b) :
    byteAfter i s a = b := by
  rw [byteAfter, h, Option.getD_some]

/-! ### The instructions with a checked access -/

/-- A checked access followed by a next state: either it succeeds, or the fault is answered. -/
theorem bindFault_eq_next {α : Type} {r : Except Fault α} {k : α → State} {t : State} :
    (bindFault r fun a => .next (k a)) = .next t ↔ ∃ a, r = .ok a ∧ t = k a := by
  cases r with
  | ok a => simp [bindFault, eq_comm]
  | error f => simp [bindFault, raise]

/-- The sprite bytes DRW reads. -/
theorem spriteRows_ok (s : State) (n : Nibble) (rows : List Byte) :
    spriteRows s n = .ok rows ↔ (n ≠ 0#4 → effAddr s n.toNat ≤ 4096) ∧
      rows = (List.range n.toNat).map fun k => s.mem.read (effAddr s k) := by
  unfold spriteRows
  by_cases hn : n = 0#4
  · simp [hn, eq_comm]
  · rw [if_neg hn, memReadBytes_eq, ← effAddr_add]
    simp only [← effAddr_add]
    split
    · simp [*, eq_comm]
    · simp [*]

/-- Register dump. -/
theorem exec_ldMemVx_next (x : Reg) (s t : State) : exec (.ldMemVx x) s = .next t ↔
    effAddr s x.toNat < 4096 ∧ t = s.setMem (s.mem.writeList (effAddr s 0) (regsUpTo s x)) := by
  have e := effAddr_add s x.toNat
  simp only [exec, execLdMemVx]
  refine (bindFault_eq_next (k := id)).trans ?_
  rw [memWriteBytes_eq _ _ _ (.inr (by simp [regsUpTo, regCount])),
    regsUpTo_length]
  by_cases h : effAddr s x.toNat < 4096
  · rw [if_pos (by omega)]
    simp [h, eq_comm]
  · rw [if_neg (by omega)]
    simp [h]

/-- Store of the decimal digits. -/
theorem exec_ldB_next (x : Reg) (s t : State) : exec (.ldB x) s = .next t ↔
    effAddr s 2 < 4096 ∧ t = s.setMem (s.mem.writeList (effAddr s 0) (bcdDigits (s.getV x))) := by
  have e := effAddr_add s 2
  have hl : (bcdDigits (s.getV x)).length = 3 := rfl
  simp only [exec, execLdB]
  refine (bindFault_eq_next (k := id)).trans ?_
  rw [memWriteBytes_eq _ _ _ (.inr (by simp [bcdDigits])), hl]
  by_cases h : effAddr s 2 < 4096
  · rw [if_pos (by omega)]
    simp [h, eq_comm]
  · rw [if_neg (by omega)]
    simp [h]

/-- Register load. -/
theorem exec_ldVxMem_next (x : Reg) (s t : State) : exec (.ldVxMem x) s = .next t ↔
    effAddr s x.toNat < 4096 ∧
      t = setRegsFrom s 0 ((List.range (x.toNat + 1)).map fun k => s.mem.read (effAddr s k)) := by
  have e := effAddr_add s x.toNat
  simp only [exec, execLdVxMem, regCount]
  rw [bindFault_eq_next, memReadBytes_eq]
  simp only [← effAddr_add]
  by_cases h : effAddr s x.toNat < 4096
  · rw [if_pos (by rw [effAddr_add]; omega)]
    simp [h, eq_comm]
  · rw [if_neg (by rw [effAddr_add]; omega)]
    simp [h]

/-! ### All instructions -/

/-- `exec` answers a next state exactly when the table says so, and it is the table's. -/
theorem exec_next_iff (i : Instr) (s t : State) : exec i s = .next t ↔ Effect i s t := by
  cases i with
  | ldB x => exact exec_ldB_next x s t
  | ldMemVx x => exact exec_ldMemVx_next x s t
  | ldVxMem x => exact exec_ldVxMem_next x s t
  | drw x y n =>
    simp only [exec, execDrw, Effect, bindFault_eq_next, spriteRows_ok]
    constructor
    · rintro ⟨rows, ⟨h, rfl⟩, rfl⟩
      exact ⟨h, rfl⟩
    · rintro ⟨h, rfl⟩
      exact ⟨_, ⟨h, rfl⟩, rfl⟩
  | ret =>
    simp only [exec, execRet, Effect, bindFault_eq_next]
    by_cases h : 0 < s.sp.val
    · rw [pop_ok s h]
      simp [h]
    · rw [pop_empty s (by omega)]
      simp [h]
  | call n =>
    simp only [exec, execCall, Effect, bindFault_eq_next]
    by_cases h : s.sp.val < 16
    · rw [push_ok s _ h]
      simp [h]
    · rw [push_full s _ (by omega)]
      simp [h]
  | skp x =>
    simp only [exec, execSkp, Effect, bindFault_eq_next, keyOperand_eq]
    by_cases h : (s.getV x).toNat < 16 <;> simp [h]
  | sknp x =>
    simp only [exec, execSknp, Effect, bindFault_eq_next, keyOperand_eq]
    by_cases h : (s.getV x).toNat < 16 <;> simp [h]
  | ldVxK x =>
    simp only [exec, execLdVxK, Effect]
    split <;> simp [*, eq_comm]
  | _ => exact ⟨fun h => (Host.Outcome.next.inj h).symm, fun h => congrArg Host.Outcome.next h.symm⟩

end Sys2Proof.Machine
end

