-- ==== Sys2Proof/Laws/PerInstr.lean ====
section
/-!
SUPPORT. One lemma per instruction: the fields of its word are where spec/30_encoding.md rules R61
to R69 put them.
-/

namespace Sys2Proof.Laws.EncodeFields

/-- The family, the operands and the secondary selector of the word `w` stand in `w`. -/
def fieldsOf (w : Word) : Instr → Prop
  | .cls => opOf w = 0x0#4 ∧ nnnOf w = 0x0E0#12
  | .ret => opOf w = 0x0#4 ∧ nnnOf w = 0x0EE#12
  | .jp nnn => opOf w = 0x1#4 ∧ nnnOf w = nnn
  | .call nnn => opOf w = 0x2#4 ∧ nnnOf w = nnn
  | .seImm x nn => opOf w = 0x3#4 ∧ xOf w = x ∧ nnOf w = nn
  | .sneImm x nn => opOf w = 0x4#4 ∧ xOf w = x ∧ nnOf w = nn
  | .seReg x y => opOf w = 0x5#4 ∧ xOf w = x ∧ yOf w = y
  | .ldImm x nn => opOf w = 0x6#4 ∧ xOf w = x ∧ nnOf w = nn
  | .addImm x nn => opOf w = 0x7#4 ∧ xOf w = x ∧ nnOf w = nn
  | .ldReg x y => opOf w = 0x8#4 ∧ xOf w = x ∧ yOf w = y ∧ nOf w = 0x0#4
  | .orReg x y => opOf w = 0x8#4 ∧ xOf w = x ∧ yOf w = y ∧ nOf w = 0x1#4
  | .andReg x y => opOf w = 0x8#4 ∧ xOf w = x ∧ yOf w = y ∧ nOf w = 0x2#4
  | .xorReg x y => opOf w = 0x8#4 ∧ xOf w = x ∧ yOf w = y ∧ nOf w = 0x3#4
  | .addReg x y => opOf w = 0x8#4 ∧ xOf w = x ∧ yOf w = y ∧ nOf w = 0x4#4
  | .sub x y => opOf w = 0x8#4 ∧ xOf w = x ∧ yOf w = y ∧ nOf w = 0x5#4
  | .shr x => opOf w = 0x8#4 ∧ xOf w = x ∧ nOf w = 0x6#4
  | .subn x y => opOf w = 0x8#4 ∧ xOf w = x ∧ yOf w = y ∧ nOf w = 0x7#4
  | .shl x => opOf w = 0x8#4 ∧ xOf w = x ∧ nOf w = 0xE#4
  | .sneReg x y => opOf w = 0x9#4 ∧ xOf w = x ∧ yOf w = y
  | .ldI nnn => opOf w = 0xA#4 ∧ nnnOf w = nnn
  | .jpV0 nnn => opOf w = 0xB#4 ∧ nnnOf w = nnn
  | .rnd x nn => opOf w = 0xC#4 ∧ xOf w = x ∧ nnOf w = nn
  | .drw x y n => opOf w = 0xD#4 ∧ xOf w = x ∧ yOf w = y ∧ nOf w = n
  | .skp x => opOf w = 0xE#4 ∧ xOf w = x ∧ nnOf w = 0x9E#8
  | .sknp x => opOf w = 0xE#4 ∧ xOf w = x ∧ nnOf w = 0xA1#8
  | .ldVxDt x => opOf w = 0xF#4 ∧ xOf w = x ∧ nnOf w = 0x07#8
  | .ldVxK x => opOf w = 0xF#4 ∧ xOf w = x ∧ nnOf w = 0x0A#8
  | .ldDtVx x => opOf w = 0xF#4 ∧ xOf w = x ∧ nnOf w = 0x15#8
  | .ldStVx x => opOf w = 0xF#4 ∧ xOf w = x ∧ nnOf w = 0x18#8
  | .addI x => opOf w = 0xF#4 ∧ xOf w = x ∧ nnOf w = 0x1E#8
  | .ldF x => opOf w = 0xF#4 ∧ xOf w = x ∧ nnOf w = 0x29#8
  | .ldB x => opOf w = 0xF#4 ∧ xOf w = x ∧ nnOf w = 0x33#8
  | .ldMemVx x => opOf w = 0xF#4 ∧ xOf w = x ∧ nnOf w = 0x55#8
  | .ldVxMem x => opOf w = 0xF#4 ∧ xOf w = x ∧ nnOf w = 0x65#8
  | .nop v => w = v

/-- The encoding of an instruction holds its fields. -/
def Statement (i : Instr) : Prop := fieldsOf (encode i) i

theorem cls : Statement .cls :=
  ⟨rfl, rfl⟩

theorem ret : Statement .ret :=
  ⟨rfl, rfl⟩

theorem jp (nnn : Addr) : Statement (.jp nnn) :=
  ⟨opOf_nnn .., nnnOf_nnn ..⟩

theorem call (nnn : Addr) : Statement (.call nnn) :=
  ⟨opOf_nnn .., nnnOf_nnn ..⟩

theorem seImm (x : Reg) (nn : Byte) : Statement (.seImm x nn) :=
  ⟨opOf_xnn .., xOf_xnn .., nnOf_xnn ..⟩

theorem sneImm (x : Reg) (nn : Byte) : Statement (.sneImm x nn) :=
  ⟨opOf_xnn .., xOf_xnn .., nnOf_xnn ..⟩

theorem seReg (x : Reg) (y : Reg) : Statement (.seReg x y) :=
  ⟨opOf_xyn .., xOf_xyn .., yOf_xyn ..⟩

theorem ldImm (x : Reg) (nn : Byte) : Statement (.ldImm x nn) :=
  ⟨opOf_xnn .., xOf_xnn .., nnOf_xnn ..⟩

theorem addImm (x : Reg) (nn : Byte) : Statement (.addImm x nn) :=
  ⟨opOf_xnn .., xOf_xnn .., nnOf_xnn ..⟩

theorem ldReg (x : Reg) (y : Reg) : Statement (.ldReg x y) :=
  ⟨opOf_xyn .., xOf_xyn .., yOf_xyn .., nOf_xyn ..⟩

theorem orReg (x : Reg) (y : Reg) : Statement (.orReg x y) :=
  ⟨opOf_xyn .., xOf_xyn .., yOf_xyn .., nOf_xyn ..⟩

theorem andReg (x : Reg) (y : Reg) : Statement (.andReg x y) :=
  ⟨opOf_xyn .., xOf_xyn .., yOf_xyn .., nOf_xyn ..⟩

theorem xorReg (x : Reg) (y : Reg) : Statement (.xorReg x y) :=
  ⟨opOf_xyn .., xOf_xyn .., yOf_xyn .., nOf_xyn ..⟩

theorem addReg (x : Reg) (y : Reg) : Statement (.addReg x y) :=
  ⟨opOf_xyn .., xOf_xyn .., yOf_xyn .., nOf_xyn ..⟩

theorem sub (x : Reg) (y : Reg) : Statement (.sub x y) :=
  ⟨opOf_xyn .., xOf_xyn .., yOf_xyn .., nOf_xyn ..⟩

theorem shr (x : Reg) : Statement (.shr x) :=
  ⟨opOf_xyn .., xOf_xyn .., nOf_xyn ..⟩

theorem subn (x : Reg) (y : Reg) : Statement (.subn x y) :=
  ⟨opOf_xyn .., xOf_xyn .., yOf_xyn .., nOf_xyn ..⟩

theorem shl (x : Reg) : Statement (.shl x) :=
  ⟨opOf_xyn .., xOf_xyn .., nOf_xyn ..⟩

theorem sneReg (x : Reg) (y : Reg) : Statement (.sneReg x y) :=
  ⟨opOf_xyn .., xOf_xyn .., yOf_xyn ..⟩

theorem ldI (nnn : Addr) : Statement (.ldI nnn) :=
  ⟨opOf_nnn .., nnnOf_nnn ..⟩

theorem jpV0 (nnn : Addr) : Statement (.jpV0 nnn) :=
  ⟨opOf_nnn .., nnnOf_nnn ..⟩

theorem rnd (x : Reg) (nn : Byte) : Statement (.rnd x nn) :=
  ⟨opOf_xnn .., xOf_xnn .., nnOf_xnn ..⟩

theorem drw (x : Reg) (y : Reg) (n : Nibble) : Statement (.drw x y n) :=
  ⟨opOf_xyn .., xOf_xyn .., yOf_xyn .., nOf_xyn ..⟩

theorem skp (x : Reg) : Statement (.skp x) :=
  ⟨opOf_xnn .., xOf_xnn .., nnOf_xnn ..⟩

theorem sknp (x : Reg) : Statement (.sknp x) :=
  ⟨opOf_xnn .., xOf_xnn .., nnOf_xnn ..⟩

theorem ldVxDt (x : Reg) : Statement (.ldVxDt x) :=
  ⟨opOf_xnn .., xOf_xnn .., nnOf_xnn ..⟩

theorem ldVxK (x : Reg) : Statement (.ldVxK x) :=
  ⟨opOf_xnn .., xOf_xnn .., nnOf_xnn ..⟩

theorem ldDtVx (x : Reg) : Statement (.ldDtVx x) :=
  ⟨opOf_xnn .., xOf_xnn .., nnOf_xnn ..⟩

theorem ldStVx (x : Reg) : Statement (.ldStVx x) :=
  ⟨opOf_xnn .., xOf_xnn .., nnOf_xnn ..⟩

theorem addI (x : Reg) : Statement (.addI x) :=
  ⟨opOf_xnn .., xOf_xnn .., nnOf_xnn ..⟩

theorem ldF (x : Reg) : Statement (.ldF x) :=
  ⟨opOf_xnn .., xOf_xnn .., nnOf_xnn ..⟩

theorem ldB (x : Reg) : Statement (.ldB x) :=
  ⟨opOf_xnn .., xOf_xnn .., nnOf_xnn ..⟩

theorem ldMemVx (x : Reg) : Statement (.ldMemVx x) :=
  ⟨opOf_xnn .., xOf_xnn .., nnOf_xnn ..⟩

theorem ldVxMem (x : Reg) : Statement (.ldVxMem x) :=
  ⟨opOf_xnn .., xOf_xnn .., nnOf_xnn ..⟩

theorem nop (w : Word) : Statement (.nop w) :=
  rfl

end Sys2Proof.Laws.EncodeFields
end

