-- ==== Sys2Proof/Tests/Slice0.lean ====
section
/-!
SUPPORT. Tests on one step each. Expected results are the hand-derived vectors of
spec/95_test_vectors.md (T-...), the worked examples of the instruction rules (Example of R...), and
the source's own examples (S...); none is the model's own answer.
-/

namespace Sys2Proof.Tests

open Sys2Proof Sys2Proof.Machine

/-! ### Helpers -/

/-- The state after reset with a word at 0x200. -/
def start (w : Word) : State := State.reset.placeWord w

/-- One step answers a next state that satisfies `p`. -/
def after (s : State) (p : State → Bool) : Bool :=
  match step s with
  | .next t => p t
  | .fault _ => false
  | .refused _ => false

/-- The fault one step answers. -/
def faultOfStep (s : State) : Option Fault :=
  match step s with
  | .next _ => none
  | .fault f => some f
  | .refused _ => none

/-- Bytes put into memory from an address on. -/
def bytes (a : Nat) (bs : List Byte) (s : State) : State := s.setMem (s.mem.writeList a bs)

/-- `n` live stack entries. -/
def depth (n : Fin 17) (s : State) : State := { s with sp := n }

/-- A cell lit. -/
def lit (y x : Nat) (s : State) : State := s.togglePixel y x

/-- The lit columns of a row, among the first and the last two. -/
def litEdges (y : Nat) (s : State) : List Nat := [0, 1, 62, 63].filter (s.pixel y)

/-! ### Decoding: words written out from rule R64 -/

theorem test_decode_cls : decode 0b0000000011100000#16 = .cls := by decide
theorem test_decode_ret : decode 0b0000000011101110#16 = .ret := by decide
theorem test_decode_jp : decode 0b0001101010111100#16 = .jp 0xABC#12 := by decide
theorem test_decode_call : decode 0b0010001100000000#16 = .call 0x300#12 := by decide
theorem test_decode_seImm : decode 0b0011010100010000#16 = .seImm 5#4 0x10#8 := by decide
theorem test_decode_sneImm : decode 0b0100010100010001#16 = .sneImm 5#4 0x11#8 := by decide
theorem test_decode_seReg : decode 0b0101000100100000#16 = .seReg 1#4 2#4 := by decide
theorem test_decode_ldImm : decode 0b0110101000000010#16 = .ldImm 0xA#4 2#8 := by decide
theorem test_decode_addImm : decode 0b0111000100000011#16 = .addImm 1#4 3#8 := by decide
theorem test_decode_ldReg : decode 0b1000101010110000#16 = .ldReg 0xA#4 0xB#4 := by decide
theorem test_decode_orReg : decode 0b1000000100100001#16 = .orReg 1#4 2#4 := by decide
theorem test_decode_andReg : decode 0b1000000100100010#16 = .andReg 1#4 2#4 := by decide
theorem test_decode_xorReg : decode 0b1000000100100011#16 = .xorReg 1#4 2#4 := by decide
theorem test_decode_addReg : decode 0b1000000100100100#16 = .addReg 1#4 2#4 := by decide
theorem test_decode_sub : decode 0b1000000100100101#16 = .sub 1#4 2#4 := by decide
theorem test_decode_shr : decode 0b1000000100100110#16 = .shr 1#4 := by decide
theorem test_decode_subn : decode 0b1000000100100111#16 = .subn 1#4 2#4 := by decide
theorem test_decode_shl : decode 0b1000000100101110#16 = .shl 1#4 := by decide
theorem test_decode_sneReg : decode 0b1001000100100000#16 = .sneReg 1#4 2#4 := by decide
theorem test_decode_ldI : decode 0b1010001011110000#16 = .ldI 0x2F0#12 := by decide
theorem test_decode_jpV0 : decode 0b1011001100000000#16 = .jpV0 0x300#12 := by decide
theorem test_decode_rnd : decode 0b1100001100001111#16 = .rnd 3#4 0x0F#8 := by decide
theorem test_decode_drw : decode 0b1101000100100011#16 = .drw 1#4 2#4 3#4 := by decide
theorem test_decode_skp : decode 0b1110001010011110#16 = .skp 2#4 := by decide
theorem test_decode_sknp : decode 0b1110001010100001#16 = .sknp 2#4 := by decide
theorem test_decode_ldVxDt : decode 0b1111001100000111#16 = .ldVxDt 3#4 := by decide
theorem test_decode_ldVxK : decode 0b1111010100001010#16 = .ldVxK 5#4 := by decide
theorem test_decode_ldDtVx : decode 0b1111001100010101#16 = .ldDtVx 3#4 := by decide
theorem test_decode_ldStVx : decode 0b1111001100011000#16 = .ldStVx 3#4 := by decide
theorem test_decode_addI : decode 0b1111001000011110#16 = .addI 2#4 := by decide
theorem test_decode_ldF : decode 0b1111010000101001#16 = .ldF 4#4 := by decide
theorem test_decode_ldB : decode 0b1111001100110011#16 = .ldB 3#4 := by decide
theorem test_decode_ldMemVx : decode 0b1111001001010101#16 = .ldMemVx 2#4 := by decide
theorem test_decode_ldVxMem : decode 0b1111001001100101#16 = .ldVxMem 2#4 := by decide
theorem test_decode_nop : decode 0b1000000100101000#16 = .nop 0x8128#16 := by decide

/-- T-CYC 8, 9, 11 to 13: words that are no instruction. -/
theorem test_decode_unrecognised :
    [0x0000#16, 0x0123#16, 0x00E1#16, 0x8FFF#16, 0x812F#16, 0xE000#16, 0xE19F#16, 0xE1A0#16, 0xF000#16, 0xF1FF#16,
      0xF134#16, 0xF156#16].all (fun w => decode w == .nop w) = true := by decide

/-- T-CYC 14: the strict-table reading. -/
theorem test_decode_ext_off :
    [0xE19E#16, 0xF107#16].all (fun w => decodeWith false w == .nop w) = true := by decide

/-- T-CYC 2: the fields of 0xD123. -/
theorem test_fields : opOf 0xD123#16 = 0xD#4 ∧ xOf 0xD123#16 = 1#4 ∧ yOf 0xD123#16 = 2#4 ∧ nOf 0xD123#16 = 3#4 ∧
    nnOf 0xD123#16 = 0x23#8 ∧ nnnOf 0xD123#16 = 0x123#12 := by decide

/-- Fewer than two bytes are no instruction (R60). -/
theorem test_decode_truncated : (decodeBytes [0x60#8]).toOption = none := by decide

/-- The first byte is the high one (R43). -/
theorem test_decode_table_word : decodeTableWord 16 0x6A02 = some (.ldImm 0xA#4 2#8) := by decide

/-! ### Well-formedness: an ill-formed term for the one check, on the word of every row -/

theorem test_ill_formed_nop : opcodeMap.all (fun r => !(Instr.nop r.value).wellFormed) = true := by decide

theorem test_well_formed_nop : (Instr.nop 0x8128#16).wellFormed = true := by decide

theorem test_ill_formed_ext_off :
    [Instr.skp 0, .sknp 0, .ldVxDt 0, .ldVxK 0, .ldDtVx 0, .ldStVx 0, .ldF 0].all
      (fun i => !i.wellFormedWith false) = true := by decide

/-! ### The cycle -/

/-- T-CYC 1 -/
theorem test_cycle_high_byte_first : after (bytes 512 [0x6A#8, 0x02#8] State.reset) (fun t => t.getV 0xA == 2#8 && t.pc == 0x202#16 && t.started) = true := by decide

/-- T-CYC 3 -/
theorem test_cycle_last_word : after (State.reset.setPc 0x0FFE#16) (fun t => t.pc == 0x1000#16) = true := by decide

/-- T-CYC 4 -/
theorem test_cycle_fetch_fault : faultOfStep (State.reset.setPc 0x1000#16) = some .addressOutOfRange := by decide

/-- T-CYC 5 -/
theorem test_cycle_fetch_second_byte : faultOfStep (State.reset.setPc 0x0FFF#16) = some .addressOutOfRange := by decide

/-- T-CYC 6 -/
theorem test_cycle_odd_pc : after (bytes 0x201 [0x61#8, 0x07#8] (State.reset.setPc 0x201#16)) (fun t => t.getV 1 == 7#8 && t.pc == 0x203#16) = true := by decide

/-- T-CYC 16 -/
theorem test_cycle_latched : faultOfStep ((start 0x6A02#16).latchFault .stackOverflow) = some .stackOverflow := by decide

/-- T-CYC 10 -/
theorem test_nop_changes_pc_only : after ((((start 0x8128#16).setV 1 3#8).setV 2 4#8).setV 0xF 9#8) (fun t => t.pc == 0x202#16 && t.getV 1 == 3#8 && t.getV 2 == 4#8 && t.getV 0xF == 9#8) = true := by decide

/-- T-EXT 10 -/
theorem test_nop_clears_kwait : after ((start 0x0000#16).setKwait true) (fun t => !t.kwait) = true := by decide

/-! ### Control transfer -/

/-- T-CTL 7 -/
theorem test_ret : after (depth 2 { start 0x00EE#16 with stack := (State.reset.stack).set 1 0x0456#16 }) (fun t => t.pc == 0x456#16 && t.sp.val == 1 && t.stack[1] == 0x0456#16) = true := by decide

/-- T-CTL 8 -/
theorem test_ret_underflow : faultOfStep (start 0x00EE#16) = some .stackUnderflow := by decide

/-- T-CTL 1 -/
theorem test_jp : after (start 0x1ABC#16) (fun t => t.pc == 0xABC#16) = true := by decide

/-- T-CTL 2 -/
theorem test_jp_odd : after (start 0x1201#16) (fun t => t.pc == 0x201#16) = true := by decide

/-- T-CTL 5: the last free entry -/
theorem test_call : after (depth 15 (State.reset.setPc 0x2A0#16 |>.placeWord 0x2400#16)) (fun t => t.stack[15] == 0x02A2#16 && t.sp.val == 16 && t.pc == 0x400#16) = true := by decide

/-- T-CTL 6 -/
theorem test_call_overflow : faultOfStep (depth 16 (start 0x2400#16)) = some .stackOverflow := by decide

/-- T-CTL 10 -/
theorem test_seImm_taken : after ((start 0x3510#16).setV 5 0x10#8) (fun t => t.pc == 0x204#16) = true := by decide

/-- T-CTL 11 -/
theorem test_seImm_not_taken : after ((start 0x3511#16).setV 5 0x10#8) (fun t => t.pc == 0x202#16) = true := by decide

/-- T-CTL 12 -/
theorem test_sneImm_not_taken : after ((start 0x4510#16).setV 5 0x10#8) (fun t => t.pc == 0x202#16) = true := by decide

/-- T-CTL 13 -/
theorem test_sneImm_taken : after ((start 0x4511#16).setV 5 0x10#8) (fun t => t.pc == 0x204#16) = true := by decide

/-- T-CYC 15 -/
theorem test_seReg_low_nibble_ignored : after (((start 0x5123#16).setV 1 9#8).setV 2 9#8) (fun t => t.pc == 0x204#16) = true := by decide

/-- T-CTL 15 -/
theorem test_seReg_not_taken : after (((start 0x5120#16).setV 1 9#8).setV 2 8#8) (fun t => t.pc == 0x202#16) = true := by decide

/-- T-CTL 17 -/
theorem test_sneReg_taken : after (((start 0x9120#16).setV 1 9#8).setV 2 8#8) (fun t => t.pc == 0x204#16) = true := by decide

/-- T-CTL 19 -/
theorem test_sneReg_same_register : after ((start 0x9110#16).setV 1 0x77#8) (fun t => t.pc == 0x202#16) = true := by decide

/-- T-CTL 21 -/
theorem test_jpV0_not_masked : after ((start 0xBFFF#16).setV 0 0xFF#8) (fun t => t.pc == 0x10FE#16) = true := by decide

/-- T-CTL 22 -/
theorem test_jpV0_not_vx : after (((start 0xB300#16).setV 3 7#8).setV 0 2#8) (fun t => t.pc == 0x302#16) = true := by decide

/-! ### Register instructions -/

/-- T-ALU 1 -/
theorem test_ldImm_flag_register : after (start 0x6F55#16) (fun t => t.getV 0xF == 0x55#8) = true := by decide

/-- T-ALU 2 -/
theorem test_addImm_no_flag : after (((start 0x7103#16).setV 1 0xFE#8).setV 0xF 7#8) (fun t => t.getV 1 == 1#8 && t.getV 0xF == 7#8) = true := by decide

/-- T-ALU 4 -/
theorem test_addImm_wraps : after ((start 0x71FF#16).setV 1 1#8) (fun t => t.getV 1 == 0#8) = true := by decide

/-- T-ALU 5 -/
theorem test_ldReg : after (((start 0x8AB0#16).setV 0xB 0x12#8).setV 0xF 7#8) (fun t => t.getV 0xA == 0x12#8 && t.getV 0xF == 7#8) = true := by decide

/-- T-ALU 6 -/
theorem test_or_flag_kept : after ((((start 0x8121#16).setV 1 0x55#8).setV 2 0xAA#8).setV 0xF 7#8) (fun t => t.getV 1 == 0xFF#8 && t.getV 0xF == 7#8) = true := by decide

/-- T-ALU 7 -/
theorem test_and_flag_kept : after ((((start 0x8122#16).setV 1 0x55#8).setV 2 0xAA#8).setV 0xF 7#8) (fun t => t.getV 1 == 0#8 && t.getV 0xF == 7#8) = true := by decide

/-- T-ALU 8 -/
theorem test_xor_flag_kept : after ((((start 0x8123#16).setV 1 0x55#8).setV 2 0xFF#8).setV 0xF 7#8) (fun t => t.getV 1 == 0xAA#8 && t.getV 0xF == 7#8) = true := by decide

/-- T-ALU 12 -/
theorem test_addReg_carry : after (((start 0x8124#16).setV 1 0x80#8).setV 2 0x80#8) (fun t => t.getV 1 == 0#8 && t.getV 0xF == 1#8) = true := by decide

/-- T-ALU 15 -/
theorem test_addReg_into_flag : after (((start 0x8F14#16).setV 0xF 0xF0#8).setV 1 0x20#8) (fun t => t.getV 0xF == 1#8) = true := by decide

/-- T-ALU 19 -/
theorem test_sub_borrow : after (((start 0x8125#16).setV 1 0x30#8).setV 2 0x50#8) (fun t => t.getV 1 == 0xE0#8 && t.getV 0xF == 0#8) = true := by decide

/-- T-ALU 25 -/
theorem test_sub_flag_operand : after (((start 0x81F5#16).setV 1 5#8).setV 0xF 3#8) (fun t => t.getV 1 == 4#8 && t.getV 0xF == 1#8) = true := by decide

/-- T-ALU 24 -/
theorem test_sub_into_flag : after (((start 0x8F15#16).setV 0xF 5#8).setV 1 3#8) (fun t => t.getV 0xF == 0xFE#8) = true := by decide

/-- S3 -/
theorem test_shr : after ((start 0x8106#16).setV 1 0x81#8) (fun t => t.getV 1 == 0x40#8 && t.getV 0xF == 1#8) = true := by decide

/-- T-ALU 33 -/
theorem test_shr_flag : after ((start 0x8F06#16).setV 0xF 3#8) (fun t => t.getV 0xF == 0#8) = true := by decide

/-- T-ALU 34 -/
theorem test_subn : after (((start 0x8127#16).setV 1 0x30#8).setV 2 0x50#8) (fun t => t.getV 1 == 0x20#8 && t.getV 0xF == 1#8) = true := by decide

/-- T-ALU 38 -/
theorem test_subn_flag_operand : after (((start 0x81F7#16).setV 1 5#8).setV 0xF 3#8) (fun t => t.getV 1 == 0xFB#8 && t.getV 0xF == 0#8) = true := by decide

/-- S4 -/
theorem test_shl : after ((start 0x810E#16).setV 1 0x81#8) (fun t => t.getV 1 == 2#8 && t.getV 0xF == 1#8) = true := by decide

/-- T-ALU 44 -/
theorem test_shl_flag : after ((start 0x8F0E#16).setV 0xF 0x80#8) (fun t => t.getV 0xF == 2#8) = true := by decide

/-! ### Index and memory -/

/-- T-IDX 1 -/
theorem test_ldI : after (start 0xAFFF#16) (fun t => t.index == 0xFFF#16) = true := by decide

/-- T-IDX 2 -/
theorem test_addI_not_masked : after (((start 0xF11E#16).setIndex 0x0FFF#16).setV 1 1#8) (fun t => t.index == 0x1000#16 && t.getV 0xF == 0#8) = true := by decide

/-- T-IDX 3 -/
theorem test_addI_wraps : after (((start 0xF11E#16).setIndex 0xFFFF#16).setV 1 2#8) (fun t => t.index == 1#16) = true := by decide

/-- T-IDX 8 -/
theorem test_ldB_top_of_memory : after (((start 0xF333#16).setIndex 0x0FFD#16).setV 3 156#8) (fun t => t.mem.read 0xFFD == 1#8 && t.mem.read 0xFFE == 5#8 && t.mem.read 0xFFF == 6#8 && t.mem.wf) = true := by decide

/-- T-IDX 9 -/
theorem test_ldB_fault : faultOfStep (((start 0xF333#16).setIndex 0x0FFE#16).setV 3 156#8) = some .addressOutOfRange := by decide

/-- Example of R123 -/
theorem test_ldMemVx : after (((((start 0xF255#16).setIndex 0x300#16).setV 0 1#8).setV 1 2#8).setV 2 3#8) (fun t => t.mem.read 0x300 == 1#8 && t.mem.read 0x301 == 2#8 && t.mem.read 0x302 == 3#8 && t.mem.read 0x303 == 0#8 && t.index == 0x300#16) = true := by decide

/-- T-IDX 14 -/
theorem test_ldMemVx_fault : faultOfStep ((start 0xF155#16).setIndex 0x0FFF#16) = some .addressOutOfRange := by decide

/-- T-IDX 18 -/
theorem test_ldVxMem : after ((bytes 0x300 [1#8, 2#8, 3#8] ((start 0xF265#16).setIndex 0x300#16)).setV 3 0x77#8) (fun t => t.getV 0 == 1#8 && t.getV 1 == 2#8 && t.getV 2 == 3#8 && t.getV 3 == 0x77#8) = true := by decide

/-- T-IDX 16 -/
theorem test_ldVxMem_fault : faultOfStep ((start 0xF165#16).setIndex 0x0FFF#16) = some .addressOutOfRange := by decide

/-! ### Random and display -/

/-- R130: the draw under the mask, whatever the draw. -/
theorem test_rnd : ∃ t, step (start 0xC30F#16) = .next t ∧ t.getV 3 = Config.rand 0 &&& 0x0F#8 ∧ t.draws = 1 :=
  ⟨_, rfl, rfl, rfl⟩

/-- T-DSP 5 -/
theorem test_cls : after ((lit 31 63 (lit 5 5 (start 0x00E0#16))).setV 0xF 1#8) (fun t => !t.pixel 5 5 && !t.pixel 31 63 && t.getV 0xF == 1#8) = true := by decide

/-- T-DSP 10 -/
theorem test_drw_clipped_corner : after (bytes 0x300 [0xFF#8] ((((start 0xD011#16).setIndex 0x300#16).setV 0 0xFF#8).setV 1 0xFF#8)) (fun t => litEdges 31 t == [63] && litEdges 0 t == [] && t.getV 0xF == 0#8) = true := by decide

/-- T-DSP 12 -/
theorem test_drw_collision : after (lit 0 0 (bytes 0x300 [0xC0#8] ((start 0xD011#16).setIndex 0x300#16))) (fun t => litEdges 0 t == [1] && litEdges 1 t == [] && t.getV 0xF == 1#8) = true := by decide

/-- T-DSP 19 -/
theorem test_drw_flag_coordinate : after (bytes 0x300 [0x80#8] (((start 0xDF11#16).setIndex 0x300#16).setV 0xF 10#8)) (fun t => t.pixel 0 10 && litEdges 0 t == [] && t.getV 0xF == 0#8) = true := by decide

/-- T-DSP 15 -/
theorem test_drw_no_rows : after (((start 0xD010#16).setIndex 0xFFFF#16).setV 0xF 5#8) (fun t => litEdges 0 t == [] && t.getV 0xF == 0#8) = true := by decide

/-- T-DSP 18 -/
theorem test_drw_fault_clipped_row : faultOfStep (((start 0xD012#16).setIndex 0x0FFF#16).setV 1 31#8) = some .addressOutOfRange := by decide

/-! ### Keypad, timers, font -/

/-- T-EXT 6 -/
theorem test_skp_taken : after (setKey 15 true ((start 0xE29E#16).setV 2 0x0F#8)) (fun t => t.pc == 0x204#16) = true := by decide

/-- T-EXT 2 -/
theorem test_skp_not_taken : after ((start 0xE29E#16).setV 2 5#8) (fun t => t.pc == 0x202#16) = true := by decide

/-- T-EXT 5 -/
theorem test_skp_no_such_key : faultOfStep ((start 0xE29E#16).setV 2 0x10#8) = some .addressOutOfRange := by decide

/-- T-EXT 3 -/
theorem test_sknp_taken : after ((start 0xE2A1#16).setV 2 5#8) (fun t => t.pc == 0x204#16) = true := by decide

/-- T-EXT 4 -/
theorem test_sknp_not_taken : after (setKey 5 true ((start 0xE2A1#16).setV 2 5#8)) (fun t => t.pc == 0x202#16) = true := by decide

/-- T-EXT 7 -/
theorem test_ldVxDt : after ((start 0xF307#16).setDt 0x1C#8) (fun t => t.getV 3 == 0x1C#8 && t.dt == 0x1C#8) = true := by decide

/-- T-EXT 8 -/
theorem test_ldVxK_waits : after (start 0xF50A#16) (fun t => t.pc == 0x200#16 && t.kwait && t.getV 5 == 0#8) = true := by decide

/-- T-EXT 9 -/
theorem test_ldVxK_least_key : after (setKey 9 true (setKey 3 true (start 0xF50A#16))) (fun t => t.getV 5 == 3#8 && t.pc == 0x202#16 && !t.kwait) = true := by decide

/-- T-EXT 11 -/
theorem test_ldDtVx : after ((start 0xF315#16).setV 3 0x3C#8) (fun t => t.dt == 0x3C#8) = true := by decide

/-- T-EXT 12 -/
theorem test_ldStVx : after ((start 0xF318#16).setV 3 2#8) (fun t => t.st == 2#8 && t.tone) = true := by decide

/-- T-EXT 13 -/
theorem test_ldStVx_off : after ((start 0xF318#16).setSt 9#8) (fun t => t.st == 0#8 && !t.tone) = true := by decide

/-- T-EXT 15 without the platform's choice: `FONT_BASE + 1275`, whatever `FONT_BASE`. -/
theorem test_ldF : ∃ t, step ((start 0xF429#16).setV 4 0xFF#8) = .next t ∧
    t.index = Config.fontBase.setWidth 16 + 1275#16 := ⟨_, rfl, rfl⟩

/-! ### Host operations -/

/-- T-HOST 6. -/
theorem test_tick_floor : (tick (State.reset.setDt 2#8)).dt = 1#8 ∧ (tick (State.reset.setDt 2#8)).st = 0#8 := by
  decide

/-- T-HOST 4. -/
theorem test_load_twice :
    let s := (loadImage [0x11#8] (loadImage [0xAA#8, 0xBB#8, 0xCC#8] State.reset).2).2
    s.mem.read 0x200 = 0x11#8 ∧ s.mem.read 0x201 = 0xBB#8 ∧ s.mem.read 0x202 = 0xCC#8 := by decide

/-- T-HOST 5. -/
theorem test_load_after_cycle : (loadImage [0x11#8] State.reset.setStarted).1 = .refused .loadAfterCycle := by
  decide

/-- T-HOST 2. -/
theorem test_load_too_large : (loadImage (List.replicate 3585 1#8) State.reset).1 = .imageTooLarge := by
  rw [loadImage, if_neg (by decide), if_pos (by rw [List.length_replicate]; decide)]

/-- T-HOST 10. -/
theorem test_set_key : (setKey 7 true State.reset).keyDown 7 = true ∧ (setKey 7 true State.reset).keyDown 6 = false := by
  decide

/-- T-CYC 4 as the host sees it: the latch set, `pc` unchanged. -/
theorem test_invoke_fetch_fault :
    invokeStep (State.reset.setPc 0x1000#16) =
      (.fault .addressOutOfRange, (State.reset.setPc 0x1000#16).setStarted.latchFault .addressOutOfRange) := by
  decide

/-- T-CTL 6 as the host sees it: fault code 2, `pc` advanced (R155). -/
theorem test_invoke_execute_fault :
    (invokeStep (depth 16 (start 0x2400#16))).2.faultCode = 2 ∧
      (invokeStep (depth 16 (start 0x2400#16))).2.pc = 0x202#16 := by decide

/-- The host's placing of one instruction (log entry 9). -/
theorem test_with_fetch_word :
    after (State.reset.withFetchWord 16 0x6A02) (fun t => t.getV 0xA == 2#8 && t.pc == 0x202#16) = true := by
  decide

/-! ### Witnesses: states and operands that meet the hypotheses of the statements, clause by clause

Where a statement has a range, the values taken are its ends. -/

/-- The operation answers a next state. -/
def goesOn (r : Result) : Bool :=
  match r with
  | .next _ => true
  | .fault _ => false
  | .refused _ => false

theorem exists_next {r : Result} (h : goesOn r = true) : ∃ t, r = .next t := by
  cases r with
  | next t => exact ⟨t, rfl⟩
  | fault f => exact absurd h (by simp [goesOn])
  | refused f => exact absurd h (by simp [goesOn])

/-- Reset with `I` set. -/
def atIndex (w : Word) : State := State.reset.setIndex w

theorem witness_stepKeepsInvariant : State.reset.Inv ∧ ∃ t, step State.reset = .next t :=
  ⟨by decide, exists_next (by decide)⟩

/-- The top of the range of `pc` and of a return address. -/
theorem witness_stepKeepsInvariant_top :
    let s : State := depth 16 { State.reset.setPc 4094#16 with stack := Vector.replicate 16 4096#16 }
    s.Inv ∧ (State.reset.setPc 4350#16).Inv ∧ ∃ t, step s = .next t :=
  ⟨by decide, by decide, exists_next (by decide)⟩

theorem witness_hostOperationsKeepInvariant :
    State.reset.Inv ∧ (depth 16 (start 0x2400#16)).Inv ∧ (State.reset.setPc 4095#16).Inv := by decide

theorem witness_pcNeverOverflowsInAnyRun : Reachable State.reset ∧ ∃ t, step State.reset = .next t :=
  ⟨⟨[], rfl⟩, exists_next (by decide)⟩

/-- R15: the bound is reached. -/
theorem witness_pcNeverOverflowsInAnyRun_top :
    ∃ s : State, Reachable s ∧ s.pc.toNat = 4350 :=
  ⟨_, ⟨[.load [0x60#8, 0xFF#8, 0xBF#8, 0xFF#8], .step, .step], rfl⟩, by decide⟩

theorem witness_decodeOfEncode :
    (Instr.drw 0xF#4 0xF#4 0xF#4).wellFormed = true ∧ (Instr.nop 0xFFFF#16).wellFormed = true := by decide

theorem witness_decodeFollowsTheOpcodeMap :
    (opcodeMap.any (fun r => r.selects true 0xE19E#16) = true) ∧ recognisedWith true 0x00E1#16 = false ∧
      recognisedWith false 0xE19E#16 = false := by decide

theorem witness_secondarySelectors :
    0xF#4 ∈ [0x8#4, 0x9#4, 0xA#4, 0xB#4, 0xC#4, 0xD#4, 0xF#4] ∧
      0x29#8 ∈ [0x07#8, 0x0A#8, 0x15#8, 0x18#8, 0x29#8] ∧ 0x00#8 ∉ [0x9E#8, 0xA1#8] ∧
      0xFF#8 ∉ [0x07#8, 0x0A#8, 0x15#8, 0x18#8, 0x1E#8, 0x29#8, 0x33#8, 0x55#8, 0x65#8] := by decide

theorem witness_withoutExtensionOps :
    (∃ t, cycleWith false (start 0xF107#16) = .next t) ∧
      (¬(opOf 0xF11E#16 = 0xF#4 ∧ nnOf 0xF11E#16 ∈ [0x07#8, 0x0A#8, 0x15#8, 0x18#8, 0x29#8]) ∧
        ¬(opOf 0xF11E#16 = 0xE#4 ∧ nnOf 0xF11E#16 ∈ [0x9E#8, 0xA1#8])) ∧
      0x29#8 ∈ [0x07#8, 0x0A#8, 0x15#8, 0x18#8, 0x29#8] ∧ 0xA1#8 ∈ [0x9E#8, 0xA1#8] :=
  ⟨exists_next (by decide), by decide⟩

/-- The latch; the fetch that faults at 4095; the last fetch that does not; a fault; a next state. -/
theorem witness_stepRunsTheDecodedInstruction :
    (State.reset.latchFault .stackOverflow).fault = some .stackOverflow ∧
      ((State.reset.setPc 4095#16).fault = none ∧ 4095 ≤ (State.reset.setPc 4095#16).pc.toNat) ∧
      ((State.reset.setPc 4094#16).fault = none ∧ (State.reset.setPc 4094#16).pc.toNat ≤ 4094) ∧
      step (start 0x00EE#16) = .fault .stackUnderflow ∧ ∃ t, step State.reset = .next t :=
  ⟨by decide, by decide, by decide, rfl, exists_next (by decide)⟩

theorem witness_onlyResetClearsAFault :
    (State.reset.latchFault .addressOutOfRange).fault = some .addressOutOfRange ∧ HostOp.tick ≠ .reset ∧
      HostOp.load [1#8] ≠ .reset := by decide

/-- Each row of the table of faults at the first value that faults and the last that does not. -/
theorem witness_faultsAreExactlyTheTable :
    [faultOf .ret State.reset, faultOf (.call 0) (depth 16 State.reset), faultOf (.drw 0 0 1) (atIndex 4096#16),
      faultOf (.ldB 0) (atIndex 4094#16), faultOf (.ldMemVx 0xF#4) (atIndex 4081#16),
      faultOf (.ldVxMem 0xF#4) (atIndex 4081#16), faultOf (.skp 0) (State.reset.setV 0 16#8),
      faultOf (.sknp 0) (State.reset.setV 0 16#8)].all Option.isSome = true ∧
    [faultOf .ret (depth 1 State.reset), faultOf (.call 0) (depth 15 State.reset),
      faultOf (.drw 0 0 1) (atIndex 4095#16), faultOf (.drw 0 0 0) (atIndex 0xFFFF#16),
      faultOf (.ldB 0) (atIndex 4093#16), faultOf (.ldMemVx 0xF#4) (atIndex 4080#16),
      faultOf (.ldVxMem 0xF#4) (atIndex 4080#16), faultOf (.skp 0) (State.reset.setV 0 15#8),
      faultOf (.sknp 0) (State.reset.setV 0 15#8)].all Option.isNone = true := by decide

/-- RET on the empty stack; LD B, LD [I], LD VX,[I] and DRW with bytes inside memory and the last
outside. -/
theorem witness_executeFaultLeavesTheRestAlone :
    [start 0x00EE#16, (start 0xF333#16).setIndex 4094#16, (start 0xFF55#16).setIndex 4081#16,
      (start 0xFF65#16).setIndex 4081#16, (start 0xD002#16).setIndex 4095#16].all (fun s =>
        s.mem.wf && s.fault == none && decide (s.pc.toNat ≤ 4094) && (faultOfStep s).isSome) = true := by decide

theorem witness_safeStep : SafeStep State.reset := ⟨rfl, by decide, by decide⟩

/-- A next state of a cycle: what the statements about every cycle assume; one that ran a CALL. -/
theorem witness_cycle : (∃ t, step (start 0xF315#16) = .next t) ∧
    nextInstr (start 0x2400#16) = .call 0x400#12 ∧ ∃ t, step (start 0x2400#16) = .next t :=
  ⟨exists_next (by decide), by decide, exists_next (by decide)⟩

/-- A register that is no destination; `VF` under an instruction that writes no flag. -/
theorem witness_registersChange :
    (∃ t, exec (.sub 1#4 2#4) State.reset = .next t) ∧ isDest (.sub 1#4 2#4) 0xE#4 = false ∧ 0xE#4 ≠ 0xF#4 ∧
      (∃ t, exec (.ldImm 1#4 2#8) State.reset = .next t) ∧ isDest (.ldImm 1#4 2#8) 0xF#4 = false ∧
      writesFlag (.ldImm 1#4 2#8) = false :=
  ⟨⟨_, rfl⟩, by decide, by decide, ⟨_, rfl⟩, by decide, by decide⟩

/-- An instruction none of these statements excepts, and the two that touch the stack. -/
theorem witness_ownWriters :
    (∃ t, exec (.jp 0x200#12) State.reset = .next t) ∧ (∃ t, exec .ret (depth 1 State.reset) = .next t) ∧
      ∃ t, exec (.call 0x300#12) State.reset = .next t := ⟨⟨_, rfl⟩, ⟨_, rfl⟩, ⟨_, rfl⟩⟩

/-- No key down, and one down; an operation that is neither `reset` nor `step`. -/
theorem witness_keypadWaitAfterACycle :
    after (start 0xF50A#16) (fun t => t.kwait) = true ∧
      after (setKey 0 true (start 0xF50A#16)) (fun t => !t.kwait) = true ∧
      HostOp.tick ≠ .reset ∧ HostOp.tick ≠ .step := by decide

theorem witness_setKeyAndReset : HostOp.step ≠ .reset ∧ State.reset.setStarted.started = true ∧
    (State.reset.latchFault .stackUnderflow).fault = some .stackUnderflow := by decide

theorem witness_returnPopsIntoPc :
    (depth 1 State.reset).sp.val = (0 : Fin 16).val + 1 ∧ (depth 16 State.reset).sp.val = (15 : Fin 16).val + 1 ∧
      State.reset.sp.val = 0 := by decide

theorem witness_callPushesPcAndJumps :
    State.reset.sp.val = (0 : Fin 16).val ∧ (depth 15 State.reset).sp.val = (15 : Fin 16).val ∧
      (depth 16 State.reset).sp.val = 16 := by decide

theorem witness_callThenReturnComesBack :
    let s := depth 15 (bytes 4094 [0x00#8, 0xEE#8] (start 0x2FFE#16))
    s.fault = none ∧ s.pc.toNat ≤ 4094 ∧ wordAt s s.pc.toNat = 0x2#4 ++ 0xFFE#12 ∧ (0xFFE#12).toNat ≤ 4094 ∧
      wordAt s (0xFFE#12).toNat = 0x00EE#16 ∧ s.sp.val < 16 := by decide

theorem witness_nestedCalls :
    State.reset.sp.val = 0 ∧ (List.replicate 16 0x300#12).length ≤ 16 ∧ 16 < (List.replicate 17 0x300#12).length := by
  decide

/-- The four aliasing cases of SUB and SUBN (the first and third also of ADD and the shifts), and both
flag values they are stated with. -/
theorem witness_subtract :
    (0xE#4 ≠ 0xF#4 ∧ 0#4 ≠ 0xF#4) ∧ (0xF#4 = 0xF#4 ∧ 0xE#4 ≠ 0xF#4) ∧ (0xE#4 ≠ 0xF#4 ∧ 0xF#4 = 0xF#4) ∧
      (0xF#4 = 0xF#4 ∧ 0xF#4 = 0xF#4) ∧
      (1 = if ((State.reset.setV 1 5#8).getV 2).toNat ≤ ((State.reset.setV 1 5#8).getV 1).toNat then 1 else 0) ∧
      (0 = if ((State.reset.setV 2 5#8).getV 2).toNat ≤ ((State.reset.setV 2 5#8).getV 1).toNat then 1 else 0) := by
  decide

/-- The last access inside memory and the first outside, of one byte, of two and of sixteen. -/
theorem witness_memoryAccesses :
    4095 + 1 - 1 < 4096 ∧ 4096 ≤ 4096 + 1 - 1 ∧ 4080 + 16 - 1 < 4096 ∧ 4096 ≤ 4081 + 16 - 1 ∧ 4094 + 1 < 4096 ∧
      4096 ≤ 4095 + 1 ∧ (start 0x1234#16).mem.wf = true := by decide

theorem witness_storeBcd :
    effAddr (atIndex 4093#16) 2 < 4096 ∧ (atIndex 4093#16).mem.wf = true ∧ 4096 ≤ effAddr (atIndex 4094#16) 2 := by
  decide

theorem witness_registerDumpAndLoad :
    effAddr (atIndex 4080#16) (0xF#4).toNat < 4096 ∧ 4096 ≤ effAddr (atIndex 4081#16) (0xF#4).toNat ∧
      effAddr (atIndex 4095#16) (0#4).toNat < 4096 ∧ (atIndex 4080#16).mem.wf = true := by decide

theorem witness_loadAfterDump : ∃ t : State, (atIndex 4080#16).mem.wf = true ∧
    exec (.ldMemVx 0xF#4) (atIndex 4080#16) = .next t ∧ t.mem = t.mem ∧ t.index = (atIndex 4080#16).index :=
  ⟨_, rfl, rfl, rfl, rfl⟩

/-- `LD [I],V1` and `LD B,V3` at 512 with `I` 514, and the last word of memory stored from 4092: the
bytes stored are the next ones fetched. -/
theorem witness_storeIsSeenByTheNextFetch :
    let s := ((start 0xF155#16).setIndex 514#16).setV 0 0x12#8
    let b := ((start 0xF333#16).setIndex 514#16).setV 3 156#8
    let e := ((State.reset.setPc 4092#16).setIndex 4094#16).placeWord 0xF155#16
    (s.mem.wf = true ∧ nextInstr s = .ldMemVx 1#4 ∧ after s (fun t => t.pc.toNat ≤ 4094) = true) ∧
      (b.mem.wf = true ∧ nextInstr b = .ldB 3#4 ∧
        after b (fun t => t.pc.toNat ≤ 4094 && (fetch t).toOption == some 0x0105#16) = true) ∧
      (e.mem.wf = true ∧ nextInstr e = .ldMemVx 1#4 ∧ after e (fun t => t.pc.toNat == 4094) = true) := by decide

/-- DRW: no rows; the last row that fits; the first that does not; a lit cell under the sprite; none. -/
theorem witness_drawXorsTheClippedSprite :
    (0x0#4 = 0x0#4 ∧ (atIndex 4095#16).index.toNat + (1#4).toNat - 1 < 4096) ∧
      (1#4 ≠ 0x0#4 ∧ 4096 ≤ (atIndex 4096#16).index.toNat + (1#4).toNat - 1) ∧
      (let s := lit 31 63 (bytes 4095 [0x80#8] (((atIndex 4095#16).setV 0 63#8).setV 1 31#8))
       31 < 32 ∧ 63 < 64 ∧ s.pixel 31 63 = true ∧ spriteOn s 0#4 1#4 1#4 31 63 = true) := by decide

/-- With no cell lit no erasure is possible. -/
theorem witness_drawXorsTheClippedSprite_dark :
    ∀ row col : Nat, row < 32 → col < 64 → (atIndex 4095#16).pixel row col = true →
      spriteOn (atIndex 4095#16) 0#4 1#4 1#4 row col = false := by
  intro row col _ _ h
  rw [show (atIndex 4095#16).pixel row col = State.reset.clearFb.pixel row col from rfl, pixel_clearFb_eq] at h
  exact absurd h (by decide)

/-- DRW of a register that is not the flag, drawn again from the state it left. -/
theorem witness_drawingTwice :
    let s := bytes 0x300 [0xFF#8] (atIndex 0x300#16)
    ∃ t : State, exec (.drw 0#4 1#4 1#4) s = .next t ∧ (t.getV 0#4).toNat % 64 = (s.getV 0#4).toNat % 64 ∧
      (t.getV 1#4).toNat % 32 = (s.getV 1#4).toNat % 32 ∧ t.index = s.index ∧
      ∀ k < (1#4).toNat, t.mem.read (effAddr s k) = s.mem.read (effAddr s k) :=
  ⟨_, rfl, by decide, by decide, by decide, by decide⟩

theorem witness_keySkips :
    ((State.reset.setV 2 15#8).getV 2).toNat < 16 ∧ 16 ≤ ((State.reset.setV 2 16#8).getV 2).toNat := by decide

/-- The least key 0, the least key 15, and none. -/
theorem witness_waitForKey :
    (setKey 0 true State.reset).keyDown 0 = true ∧
      ((setKey 15 true State.reset).keyDown 15 = true ∧ ∀ j < 15, (setKey 15 true State.reset).keyDown j = false) ∧
      ∀ k < 16, State.reset.keyDown k = false := by decide

/-- The mask 0; a bit outside a mask; a register beside the destination. -/
theorem witness_randomMasksTheDraw :
    0x00#8 = 0#8 ∧ 7 < 8 ∧ (0x0F#8).getLsbD 7 = false ∧ 0xE#4 ≠ 0xF#4 := by decide

/-- The longest walk through empty memory. -/
theorem witness_emptyMemory : 0 ≤ 1792 ∧ 1792 ≤ 1792 := by decide

theorem witness_unrecognisedWords :
    recognisedWith Config.extOps 0x8128#16 = false ∧ nextInstr (start 0x8128#16) = .nop 0x8128#16 ∧
      ∃ t, step (start 0x8128#16) = .next t := ⟨by decide, by decide, exists_next (by decide)⟩

/-- The longest image that fits, the first that does not, and a core that has run. -/
theorem witness_load :
    (List.replicate 3584 1#8).length ≤ 3584 ∧ 3584 < (List.replicate 3585 1#8).length ∧
      State.reset.started = false ∧ State.reset.setStarted.started = true ∧ State.reset.mem.wf = true := by
  rw [List.length_replicate, List.length_replicate]
  decide

theorem witness_selfJump :
    let s := (start 0x1200#16).setStarted
    s.fault = none ∧ s.started = true ∧ s.kwait = false ∧ s.pc.toNat ≤ 4094 ∧ (0x200#12).toNat = s.pc.toNat ∧
      wordAt s s.pc.toNat = 0x1#4 ++ 0x200#12 := by decide

end Sys2Proof.Tests
end

/-! ## The parts of the state an instruction can write -/

section

namespace Sys2Proof.Machine

variable {s t u : State}

/-- The part holds the very same value in both states. Stronger than `SameOn`, which compares what
reads return: the canonical form of memory speaks of the list itself. -/
def Keeps (p : Part) (s t : State) : Prop :=
  match p with
  | .regs => t.v = s.v
  | .index => t.index = s.index
  | .pc => t.pc = s.pc
  | .stack => t.stack = s.stack
  | .sp => t.sp = s.sp
  | .mem => t.mem = s.mem
  | .fb => t.fb = s.fb
  | .dt => t.dt = s.dt
  | .st => t.st = s.st
  | .key => t.key = s.key
  | .kwait => t.kwait = s.kwait
  | .fault => t.fault = s.fault
  | .started => t.started = s.started
  | .draws => t.draws = s.draws

/-- Every part but the named ones holds the very same value: `Frame` with `Keeps` for `SameOn`. -/
def KeepsBut (changed : List Part) (s t : State) : Prop := ∀ p : Part, p ∉ changed → Keeps p s t

theorem Keeps.sameOn {p : Part} (h : Keeps p s t) : SameOn p s t := by
  cases p <;> simp only [Keeps] at h <;> simp [SameOn, State.getV, State.pixel, State.keyDown, h]

theorem Keeps.trans {p : Part} (h : Keeps p s t) (k : Keeps p t u) : Keeps p s u := by
  cases p <;> exact Eq.trans k h

theorem KeepsBut.frame {l : List Part} (h : KeepsBut l s t) : Frame l s t :=
  fun p hp => (h p hp).sameOn

theorem KeepsBut.trans {l : List Part} (h : KeepsBut l s t) (k : KeepsBut l t u) : KeepsBut l s u :=
  fun p hp => (h p hp).trans (k p hp)

theorem KeepsBut.mono {l m : List Part} (h : KeepsBut l s t) (hlm : l ⊆ m) : KeepsBut m s t :=
  fun p hp => h p fun hl => hp (hlm hl)

theorem KeepsBut.append {l m : List Part} (h : KeepsBut l s t) (k : KeepsBut m t u) :
    KeepsBut (l ++ m) s u := by
  intro p hp
  rw [List.mem_append, not_or] at hp
  exact (h p hp.1).trans (k p hp.2)

/-! ### The named updates -/

variable (s)

theorem keepsBut_refl (l : List Part) : KeepsBut l s s := by
  intro p _
  cases p <;> rfl

theorem keepsBut_v (w : Vector Byte 16) : KeepsBut [.regs] s { s with v := w } := by
  intro p hp
  cases p <;> simp [Keeps] at hp ⊢

theorem keepsBut_fb (f : Framebuffer) : KeepsBut [.fb] s { s with fb := f } := by
  intro p hp
  cases p <;> simp [Keeps] at hp ⊢

theorem keepsBut_setV (r : Reg) (b : Byte) : KeepsBut [.regs] s (s.setV r b) := keepsBut_v _ _

theorem keepsBut_setFlag (b : Bool) : KeepsBut [.regs] s (s.setFlag b) := keepsBut_v _ _

theorem keepsBut_setIndex (w : Word) : KeepsBut [.index] s (s.setIndex w) := by
  intro p hp
  cases p <;> simp [Keeps] at hp ⊢

theorem keepsBut_setPc (w : Word) : KeepsBut [.pc] s (s.setPc w) := by
  intro p hp
  cases p <;> simp [Keeps] at hp ⊢

theorem keepsBut_setDt (b : Byte) : KeepsBut [.dt] s (s.setDt b) := by
  intro p hp
  cases p <;> simp [Keeps] at hp ⊢

theorem keepsBut_setSt (b : Byte) : KeepsBut [.st] s (s.setSt b) := by
  intro p hp
  cases p <;> simp [Keeps] at hp ⊢

theorem keepsBut_setKwait (b : Bool) : KeepsBut [.kwait] s (s.setKwait b) := by
  intro p hp
  cases p <;> simp [Keeps] at hp ⊢

theorem keepsBut_advanceDraws (n : Nat) : KeepsBut [.draws] s (s.advanceDraws n) := by
  intro p hp
  cases p <;> simp [Keeps] at hp ⊢

theorem keepsBut_setMem (m : Memory) : KeepsBut [.mem] s (s.setMem m) := by
  intro p hp
  cases p <;> simp [Keeps] at hp ⊢

theorem keepsBut_sp (n : Fin 17) : KeepsBut [.sp] s { s with sp := n } := by
  intro p hp
  cases p <;> simp [Keeps] at hp ⊢

theorem keepsBut_stack_sp (v : Vector Word 16) (n : Fin 17) :
    KeepsBut [.stack, .sp] s { s with stack := v, sp := n } := by
  intro p hp
  cases p <;> simp [Keeps] at hp ⊢

theorem keepsBut_enterExecute : KeepsBut [.pc, .kwait, .started] s s.enterExecute := by
  intro p hp
  cases p <;> simp [Keeps] at hp ⊢

/-! ### The composed operations -/

theorem keepsBut_skipIf (c : Bool) : KeepsBut [.pc] s (skipIf c s) := by
  rw [skipIf_eq]
  exact keepsBut_setPc _ _

theorem keepsBut_setRegsFrom (k : Nat) (bs : List Byte) : KeepsBut [.regs] s (setRegsFrom s k bs) := by
  obtain ⟨w, hw⟩ := setRegsFrom_eq s k bs
  rw [hw]
  exact keepsBut_v _ _

theorem keepsBut_drawRows (y x0 : Nat) (rows : List Byte) :
    KeepsBut [.regs, .fb] s (drawRows y x0 rows s) := by
  obtain ⟨⟨f, w, h⟩, -⟩ := keptByDraw_drawRows s y x0 rows
  rw [h]
  exact (keepsBut_v s w).append (keepsBut_fb _ f)

variable {s}

/-! ### All instructions -/

/-- The parts of the state the execute stage of an instruction can write. -/
def writtenParts : Instr → List Part
  | .cls => [.fb]
  | .ret => [.sp, .pc]
  | .call _ => [.stack, .sp, .pc]
  | .jp _ | .jpV0 _ | .seImm _ _ | .sneImm _ _ | .seReg _ _ | .sneReg _ _ | .skp _ | .sknp _ => [.pc]
  | .ldImm _ _ | .addImm _ _ | .ldReg _ _ | .orReg _ _ | .andReg _ _ | .xorReg _ _ | .addReg _ _
  | .sub _ _ | .shr _ | .subn _ _ | .shl _ | .ldVxDt _ | .ldVxMem _ => [.regs]
  | .rnd _ _ => [.regs, .draws]
  | .drw _ _ _ => [.regs, .fb]
  | .ldI _ | .addI _ | .ldF _ => [.index]
  | .ldVxK _ => [.regs, .pc, .kwait]
  | .ldDtVx _ => [.dt]
  | .ldStVx _ => [.st]
  | .ldB _ | .ldMemVx _ => [.mem]
  | .nop _ => []

/-- The frame of every instruction. -/
theorem Effect.keepsBut {i : Instr} (h : Effect i s t) : KeepsBut (writtenParts i) s t := by
  cases i with
  | cls => obtain rfl := h; exact keepsBut_fb _ _
  | ret =>
    obtain ⟨_, rfl⟩ := h
    exact (keepsBut_sp s _).append (keepsBut_setPc _ _)
  | call n =>
    obtain ⟨_, rfl⟩ := h
    exact (keepsBut_stack_sp s _ _).append (keepsBut_setPc _ _)
  | jp _ | jpV0 _ => obtain rfl := h; exact keepsBut_setPc _ _
  | seImm _ _ | sneImm _ _ | seReg _ _ | sneReg _ _ => obtain rfl := h; exact keepsBut_skipIf _ _
  | skp _ | sknp _ => obtain ⟨_, rfl⟩ := h; exact keepsBut_skipIf _ _
  | ldImm _ _ | addImm _ _ | ldReg _ _ | orReg _ _ | andReg _ _ | xorReg _ _ | ldVxDt _ =>
    obtain rfl := h; exact keepsBut_setV _ _ _
  | addReg _ _ => obtain rfl := h; exact (keepsBut_setV _ _ _).trans (keepsBut_setFlag _ _)
  | sub _ _ | subn _ _ | shr _ | shl _ =>
    obtain rfl := h; exact (keepsBut_setFlag _ _).trans (keepsBut_setV _ _ _)
  | ldVxMem _ => obtain ⟨_, rfl⟩ := h; exact keepsBut_setRegsFrom _ _ _
  | rnd _ _ => obtain rfl := h; exact (keepsBut_setV _ _ _).append (keepsBut_advanceDraws _ _)
  | drw _ _ _ =>
    obtain ⟨_, rfl⟩ := h
    exact ((keepsBut_setFlag s false).append (keepsBut_drawRows _ _ _ _)).mono (by simp [writtenParts])
  | ldI _ | addI _ | ldF _ => obtain rfl := h; exact keepsBut_setIndex _ _
  | ldVxK _ =>
    obtain ⟨_, _, rfl⟩ | ⟨_, rfl⟩ := h
    · exact ((keepsBut_setV s _ _).append (keepsBut_setKwait _ _)).mono (by simp [writtenParts])
    · exact ((keepsBut_setPc s _).append (keepsBut_setKwait _ _)).mono (by simp [writtenParts])
  | ldDtVx _ => obtain rfl := h; exact keepsBut_setDt _ _
  | ldStVx _ => obtain rfl := h; exact keepsBut_setSt _ _
  | ldB _ | ldMemVx _ => obtain ⟨_, rfl⟩ := h; exact keepsBut_setMem _ _
  | nop _ => obtain rfl := h; exact keepsBut_refl _ _

/-- `exec` leaves every part alone that its instruction cannot write. -/
theorem exec_keeps {i : Instr} (h : exec i s = .next t) {p : Part} (hp : p ∉ writtenParts i) :
    Keeps p s t := ((exec_next_iff i s t).1 h).keepsBut p hp

/-! ### Who writes a part -/

theorem index_mem_writtenParts {i : Instr} : .index ∈ writtenParts i ↔
    (∃ n, i = .ldI n) ∨ (∃ x, i = .addI x) ∨ ∃ x, i = .ldF x := by
  cases i <;> simp [writtenParts]

theorem sp_mem_writtenParts {i : Instr} : .sp ∈ writtenParts i ↔ i = .ret ∨ ∃ n, i = .call n := by
  cases i <;> simp [writtenParts]

theorem stack_mem_writtenParts {i : Instr} : .stack ∈ writtenParts i ↔ ∃ n, i = .call n := by
  cases i <;> simp [writtenParts]

theorem mem_mem_writtenParts {i : Instr} : .mem ∈ writtenParts i ↔
    (∃ x, i = .ldB x) ∨ ∃ x, i = .ldMemVx x := by
  cases i <;> simp [writtenParts]

theorem fb_mem_writtenParts {i : Instr} : .fb ∈ writtenParts i ↔
    i = .cls ∨ ∃ x y n, i = .drw x y n := by
  cases i <;> simp [writtenParts]

theorem dt_mem_writtenParts {i : Instr} : .dt ∈ writtenParts i ↔ ∃ x, i = .ldDtVx x := by
  cases i <;> simp [writtenParts]

theorem st_mem_writtenParts {i : Instr} : .st ∈ writtenParts i ↔ ∃ x, i = .ldStVx x := by
  cases i <;> simp [writtenParts]

/-- No instruction writes the keypad, the fault latch or `started`. -/
theorem not_mem_writtenParts {i : Instr} {p : Part} (hp : p ∈ [.key, .fault, .started]) :
    p ∉ writtenParts i := by
  cases i <;> simp only [writtenParts] <;> revert p <;> decide

/-! ### One successful step -/

/-- A step that answers a next state had no latched fault, fetched inside memory, and had the effect of
the instruction at `pc` on the advanced state. -/
theorem step_next (h : step s = .next t) :
    s.fault = none ∧ s.pc.toNat ≤ 4094 ∧ Effect (nextInstr s) s.enterExecute t := by
  obtain ⟨hf, hpc, he⟩ := cycleWith_next h
  exact ⟨hf, hpc, (exec_next_iff ..).1 he⟩

/-- A step leaves a part alone that neither its instruction nor the advance can write. -/
theorem step_keeps (h : step s = .next t) {p : Part} (hp : p ∉ writtenParts (nextInstr s))
    (ha : p ∉ [Part.pc, .kwait, .started]) : Keeps p s t := by
  obtain ⟨-, -, he⟩ := step_next h
  exact (keepsBut_enterExecute s p ha).trans (he.keepsBut p hp)

end Sys2Proof.Machine

end

/-! ## The value an instruction gives `pc` (rule R14) -/

section

namespace Sys2Proof.Machine

variable {s t : State}

/-- The advance does not wrap where two bytes can be fetched (rules R15, R82). -/
theorem toNat_pc_enterExecute (hpc : s.pc.toNat ≤ 4094) : s.enterExecute.pc.toNat = s.pc.toNat + 2 := by
  rw [State.enterExecute_pc, BitVec.toNat_add_of_lt]
  · rfl
  · rw [BitVec.toNat_ofNat]
    omega

/-- A skip in the execute stage ends 4 or 2 bytes after the instruction (rule R98). -/
theorem toNat_pc_skipIf (c : Bool) (hpc : s.pc.toNat ≤ 4094) :
    (skipIf c s.enterExecute).pc.toNat = s.pc.toNat + if c then 4 else 2 := by
  have hadv := toNat_pc_enterExecute hpc
  rw [skipIf_eq, State.setPc_pc]
  cases c with
  | false => simpa using hadv
  | true =>
    rw [if_pos rfl, if_pos rfl, BitVec.toNat_add_of_lt, hadv]
    · rfl
    · rw [hadv, BitVec.toNat_ofNat]
      omega

/-- The wait's step back undoes the advance (rule R144). -/
theorem enterExecute_pc_sub_two : s.enterExecute.pc - 2#16 = s.pc := by
  simp

theorem toNat_jpV0_target (n : Addr) (b : Byte) :
    (zextAddr n + zextByte b).toNat = n.toNat + b.toNat := by
  have := n.isLt
  have := b.isLt
  have hlt : (zextAddr n).toNat + (zextByte b).toNat < 2 ^ 16 := by
    rw [toNat_zextAddr, toNat_zextByte]
    omega
  rw [BitVec.toNat_add_of_lt hlt, toNat_zextAddr, toNat_zextByte]

/-- A wait finds a key exactly when some key is down (rule R144). -/
theorem leastKey_isSome_iff : (leastKey s).isSome ↔ ∃ k : Fin 16, s.keyDown k = true := by
  rw [← not_iff_not, Bool.not_eq_true, Option.isSome_eq_false_iff, Option.isNone_iff_eq_none, leastKey_none]
  simp [Fin.forall_iff]

/-- The wait for a key advances exactly when a key is down. -/
theorem Effect.ldVxK_pc_eq {x : Reg} (hpc : s.pc.toNat ≤ 4094) (h : Effect (.ldVxK x) s.enterExecute t) :
    t.pc.toNat = pcAfter (.ldVxK x) s := by
  have hkey : leastKey s.enterExecute = leastKey s := rfl
  simp only [pcAfter, ← leastKey_isSome_iff, ← hkey]
  obtain ⟨k, hk, rfl⟩ | ⟨hk, rfl⟩ := h
  · rw [hk]
    exact toNat_pc_enterExecute hpc
  · rw [hk, State.setKwait_pc, State.setPc_pc, enterExecute_pc_sub_two]
    rfl

/-- After a successful cycle `pc` is what the table of rule R14 says. -/
theorem Effect.pc_eq {i : Instr} (hpc : s.pc.toNat ≤ 4094) (h : Effect i s.enterExecute t) :
    t.pc.toNat = pcAfter i s := by
  cases i with
  | jp n => obtain rfl := h; exact toNat_zextAddr n
  | call n => obtain ⟨_, rfl⟩ := h; exact toNat_zextAddr n
  | jpV0 n => obtain rfl := h; exact toNat_jpV0_target n _
  | ret =>
    obtain ⟨hsp, rfl⟩ := h
    rw [pcAfter, dif_pos (show 0 < s.sp.val from hsp)]
    rfl
  | seImm _ _ | sneImm _ _ | seReg _ _ | sneReg _ _ =>
    obtain rfl := h
    simp [toNat_pc_skipIf _ hpc, pcAfter]
  | skp _ | sknp _ =>
    obtain ⟨_, rfl⟩ := h
    simp [toNat_pc_skipIf _ hpc, pcAfter]
  | ldVxK _ => exact h.ldVxK_pc_eq hpc
  | _ =>
    have hkeep : t.pc = s.enterExecute.pc := h.keepsBut .pc (by simp [writtenParts])
    rw [hkeep]
    exact toNat_pc_enterExecute hpc

/-- The table of `pc` stays within the bound of rule R15. -/
theorem pcAfter_le (i : Instr) (hpc : s.pc.toNat ≤ 4094) (hstack : s.StackBound) : pcAfter i s ≤ 4350 := by
  cases i with
  | jp n | call n =>
    have := n.isLt
    simp only [pcAfter]
    omega
  | jpV0 n =>
    have := n.isLt
    have := (s.getV 0).isLt
    simp only [pcAfter]
    omega
  | ret =>
    simp only [pcAfter]
    split
    · have := hstack ⟨s.sp.val - 1, by omega⟩ (by simp only; omega)
      simp only [Fin.getElem_fin] at this
      omega
    · omega
  | seImm _ _ | sneImm _ _ | seReg _ _ | sneReg _ _ | skp _ | sknp _ | ldVxK _ =>
    simp only [pcAfter]
    split <;> omega
  | _ =>
    simp only [pcAfter]
    omega

/-- CALL pushes the address of the instruction after it (rule R92). -/
theorem Effect.call_pushes {n : Addr} (hpc : s.pc.toNat ≤ 4094) (h : Effect (.call n) s.enterExecute t) :
    ∃ k : Fin 16, k.val = s.sp.val ∧ t.stack[k].toNat = s.pc.toNat + 2 := by
  obtain ⟨hsp, rfl⟩ := h
  refine ⟨⟨s.sp.val, hsp⟩, rfl, ?_⟩
  simpa using toNat_pc_enterExecute hpc

end Sys2Proof.Machine

end

/-! ## The invariant of every run (rules R15, R16, R19) -/

section

namespace Sys2Proof.Machine

variable {s t : State}

theorem reset_inv : State.reset.Inv :=
  ⟨reset_mem_wf, by decide, fun _ hk => absurd hk (Nat.not_lt_zero _)⟩

/-! ### Steps -/

/-- No instruction breaks the canonical form of memory: a store that goes on lies inside memory. -/
theorem Effect.mem_wf {i : Instr} (h : Effect i s t) (hwf : s.mem.wf = true) : t.mem.wf = true := by
  by_cases hi : .mem ∈ writtenParts i
  · obtain ⟨x, rfl⟩ | ⟨x, rfl⟩ := mem_mem_writtenParts.1 hi
    · obtain ⟨hlt, rfl⟩ := h
      have hlen : (bcdDigits (s.getV x)).length = 3 := rfl
      rw [effAddr_add] at hlt
      exact Memory.wf_writeList hwf (by rw [hlen, Config.memSize]; omega)
    · obtain ⟨hlt, rfl⟩ := h
      rw [effAddr_add] at hlt
      exact Memory.wf_writeList hwf (by rw [regsUpTo_length, Config.memSize]; omega)
  · have hkeep : t.mem = s.mem := h.keepsBut .mem hi
    rwa [hkeep]

/-- Live return addresses stay at most 4096: RET drops one, and CALL pushes its own address plus 2. -/
theorem Effect.stackBound {i : Instr} (hpc : s.pc.toNat ≤ 4094) (h : Effect i s.enterExecute t)
    (hs : s.StackBound) : t.StackBound := by
  by_cases hi : .sp ∈ writtenParts i
  · obtain rfl | ⟨n, rfl⟩ := sp_mem_writtenParts.1 hi
    · obtain ⟨hsp, rfl⟩ := h
      exact fun k hk => hs k (Nat.lt_of_lt_of_le hk (Nat.sub_le _ _))
    · obtain ⟨hsp, rfl⟩ := h
      have hadv := toNat_pc_enterExecute hpc
      intro k hk
      have hk' : k.val < s.sp.val + 1 := hk
      simp only [State.setPc_stack, Fin.getElem_fin, Vector.getElem_set]
      split
      · omega
      · rename_i hne
        have hne' : s.sp.val ≠ k.val := hne
        exact hs k (by omega)
  · have hsp : t.sp = s.sp := h.keepsBut .sp hi
    have hstack : t.stack = s.stack := h.keepsBut .stack fun hc =>
      hi (sp_mem_writtenParts.2 (.inr (stack_mem_writtenParts.1 hc)))
    simpa only [State.StackBound, hsp, hstack] using hs

theorem step_inv (hs : s.Inv) (h : step s = .next t) : t.Inv := by
  obtain ⟨hwf, -, hstack⟩ := hs
  obtain ⟨-, hpc, he⟩ := step_next h
  refine ⟨he.mem_wf hwf, ?_, he.stackBound hpc hstack⟩
  rw [State.PcBound, he.pc_eq hpc]
  exact pcAfter_le _ hpc hstack

/-! ### What a faulting step leaves -/

/-- The free bytes a faulting store leaves lie inside memory. -/
theorem scrambleMem_mem_wf (a n : Nat) (hwf : s.mem.wf = true) : (scrambleMem a n s).mem.wf = true := by
  have hlen : ((List.range (min n (Config.memSize - a))).map fun k => Config.leftoverByte (s.draws + k)).length =
      min n (Config.memSize - a) := by simp
  by_cases ha : a ≤ Config.memSize
  · exact Memory.wf_writeList hwf (by rw [hlen]; omega)
  · have hnone : min n (Config.memSize - a) = 0 := by omega
    simpa [scrambleMem, hnone, Memory.writeList] using hwf

theorem keepsBut_leaveBehind (i : Instr) (s : State) : KeepsBut [.regs, .mem] s (leaveBehind i s) := by
  cases i with
  | drw _ _ _ => exact (keepsBut_setV _ _ _).mono (by simp)
  | ldB _ | ldMemVx _ => exact (keepsBut_setMem _ _).mono (by simp)
  | ldVxMem _ => exact (keepsBut_setRegsFrom _ _ _).mono (by simp)
  | _ => exact keepsBut_refl _ _

theorem leaveBehind_mem_wf (i : Instr) (hwf : s.mem.wf = true) : (leaveBehind i s).mem.wf = true := by
  cases i with
  | ldB _ | ldMemVx _ => exact scrambleMem_mem_wf _ _ hwf
  | ldVxMem x =>
    have hkeep : (leaveBehind (.ldVxMem x) s).mem = s.mem := keepsBut_setRegsFrom s 0 _ .mem (by simp)
    rwa [hkeep]
  | _ => exact hwf

theorem faultedState_inv (f : Fault) (hs : s.Inv) : (faultedState f s).Inv := by
  obtain ⟨hwf, hpc, hstack⟩ := hs
  rw [faultedState, fetch_eq]
  split
  · exact ⟨hwf, hpc, hstack⟩
  · rename_i w hw
    have hlt : s.pc.toNat ≤ 4094 := by
      split at hw
      · omega
      · cases hw
    have hkeep := keepsBut_leaveBehind (decode w) s.enterExecute
    have hpc' : (leaveBehind (decode w) s.enterExecute).pc = s.enterExecute.pc := hkeep .pc (by simp)
    have hsp : (leaveBehind (decode w) s.enterExecute).sp = s.sp := hkeep .sp (by simp)
    have hst : (leaveBehind (decode w) s.enterExecute).stack = s.stack := hkeep .stack (by simp)
    refine ⟨leaveBehind_mem_wf _ hwf, ?_, ?_⟩
    · have hadv := toNat_pc_enterExecute hlt
      simp only [State.PcBound, State.latchFault_pc, State.advanceDraws_pc, State.setKwait_pc, hpc']
      omega
    · simpa only [State.StackBound, State.latchFault_sp, State.advanceDraws_sp, State.setKwait_sp,
        State.latchFault_stack, State.advanceDraws_stack, State.setKwait_stack, hsp, hst] using hstack

/-! ### Host operations and schedules -/

theorem invokeStep_inv (hs : s.Inv) : (invokeStep s).2.Inv := by
  unfold invokeStep
  split
  · exact hs
  · split
    · exact step_inv hs ‹_›
    · exact faultedState_inv _ hs
    · exact hs

theorem loadImage_inv (image : List Byte) (hs : s.Inv) : (loadImage image s).2.Inv := by
  obtain ⟨hwf, hpc, hstack⟩ := hs
  unfold loadImage
  split
  · exact ⟨hwf, hpc, hstack⟩
  · split
    · exact ⟨hwf, hpc, hstack⟩
    · refine ⟨Memory.wf_writeList hwf ?_, hpc, hstack⟩
      simp only [Config.maxImage, Config.loadOffset, Config.memSize] at *
      omega

theorem hostStep_inv (op : HostOp) (hs : s.Inv) : (hostStep op s).2.Inv := by
  cases op with
  | reset => exact reset_inv
  | load image => exact loadImage_inv image hs
  | step => exact invokeStep_inv hs
  | tick => exact hs
  | setKey k b => exact hs

theorem runHost_inv (ops : List HostOp) (hs : s.Inv) : (runHost ops s).Inv := by
  induction ops generalizing s with
  | nil => exact hs
  | cons op ops ih => exact ih (hostStep_inv op hs)

theorem Reachable.inv (h : Reachable s) : s.Inv := by
  obtain ⟨ops, rfl⟩ := h
  exact runHost_inv ops reset_inv

end Sys2Proof.Machine

end

/-! ## Registers: destinations and the flag (rules R12, R112) -/

section

namespace Sys2Proof.Machine

variable {s t : State}

/-- A register that is neither a destination nor the flag of a flag-writing instruction is unchanged. -/
theorem Effect.getV_eq {i : Instr} {r : Reg} (h : Effect i s t) (hd : isDest i r = false)
    (hf : r = flagReg → writesFlag i = false) : t.getV r = s.getV r := by
  have hflag : writesFlag i = true → r ≠ flagReg := fun hw hr => by simp [hf hr] at hw
  cases i with
  | ldImm x _ | addImm x _ | ldReg x _ | orReg x _ | andReg x _ | xorReg x _ | ldVxDt x | rnd x _ =>
    obtain rfl := h
    have hx : r ≠ x := of_decide_eq_false hd
    simp [hx]
  | ldVxK x =>
    have hx : r ≠ x := of_decide_eq_false hd
    obtain ⟨_, _, rfl⟩ | ⟨_, rfl⟩ := h <;> simp [hx]
  | addReg x _ | sub x _ | subn x _ | shr x | shl x =>
    obtain rfl := h
    have hx : r ≠ x := of_decide_eq_false hd
    simp [subInto, hx, hflag rfl]
  | drw x y n =>
    obtain ⟨_, rfl⟩ := h
    rw [(keptByDraw_drawRows ..).2 r (hflag rfl), getV_setFlag, if_neg (hflag rfl)]
  | ldVxMem x =>
    obtain ⟨_, rfl⟩ := h
    have hx : ¬ r.toNat ≤ x.toNat := of_decide_eq_false hd
    have := x.isLt
    rw [getV_setRegsFrom _ _ _ (by simp; omega), if_neg (by simp; omega)]
  | _ => exact h.keepsBut.frame .regs (by simp [writtenParts]) r

end Sys2Proof.Machine

end

/-! ## No instruction reads `ST` or `kwait` (rules R21, R23) -/

section

namespace Sys2Proof.Machine

variable (s : State) (b : Byte) (c : Bool)

/-- The state with other values of `ST` and `kwait`. -/
def State.withSoundWait : State := (s.setSt b).setKwait c

theorem keepsBut_withSoundWait : KeepsBut [.st, .kwait] s (s.withSoundWait b c) :=
  (keepsBut_setSt s b).append (keepsBut_setKwait _ c)

theorem skipIf_withSoundWait (d : Bool) :
    skipIf d (s.withSoundWait b c) = (skipIf d s).withSoundWait b c := by
  cases d <;> rfl

theorem setRegsFrom_withSoundWait (k : Nat) (bs : List Byte) :
    setRegsFrom (s.withSoundWait b c) k bs = (setRegsFrom s k bs).withSoundWait b c := by
  induction bs generalizing s k with
  | nil => rfl
  | cons d bs ih => exact ih (s.setV (BitVec.ofNat 4 k) d) (k + 1)

theorem togglePixel_withSoundWait (y x : Nat) :
    (s.withSoundWait b c).togglePixel y x = (s.togglePixel y x).withSoundWait b c := by
  unfold State.togglePixel
  split <;> rfl

theorem drawPixel_withSoundWait (y x : Nat) :
    drawPixel y x (s.withSoundWait b c) = (drawPixel y x s).withSoundWait b c := by
  have hp : (s.withSoundWait b c).pixel y x = s.pixel y x := rfl
  unfold drawPixel
  rw [hp]
  split
  · split
    · exact togglePixel_withSoundWait (s.setFlag true) b c y x
    · exact togglePixel_withSoundWait s b c y x
  · rfl

theorem drawRow_withSoundWait (y x0 : Nat) (row : Byte) :
    drawRow y x0 row (s.withSoundWait b c) = (drawRow y x0 row s).withSoundWait b c := by
  unfold drawRow
  split
  · refine List.foldl_hom (fun u : State => u.withSoundWait b c) fun u k => ?_
    split
    · exact drawPixel_withSoundWait ..
    · rfl
  · rfl

theorem drawRows_withSoundWait (y x0 : Nat) (rows : List Byte) :
    drawRows y x0 rows (s.withSoundWait b c) = (drawRows y x0 rows s).withSoundWait b c := by
  induction rows generalizing s y with
  | nil => rfl
  | cons row rows ih => rw [drawRows, drawRow_withSoundWait, ih, drawRows]

variable {s} {t : State}

/-- An instruction run with other values of `ST` and `kwait` has the same effect but for `ST` and `kwait`. -/
theorem Effect.withSoundWait {i : Instr} (h : Effect i s t) :
    ∃ b' c', Effect i (s.withSoundWait b c) (t.withSoundWait b' c') := by
  cases i with
  | ret | call n => obtain ⟨hsp, rfl⟩ := h; exact ⟨b, c, hsp, rfl⟩
  | seImm _ _ | sneImm _ _ | seReg _ _ | sneReg _ _ =>
    obtain rfl := h; exact ⟨b, c, (skipIf_withSoundWait ..).symm⟩
  | skp _ | sknp _ => obtain ⟨hk, rfl⟩ := h; exact ⟨b, c, hk, (skipIf_withSoundWait ..).symm⟩
  | drw _ _ _ => obtain ⟨ha, rfl⟩ := h; exact ⟨b, c, ha, (drawRows_withSoundWait (s.setFlag false) ..).symm⟩
  | ldVxK _ =>
    obtain ⟨k, hk, rfl⟩ | ⟨hk, rfl⟩ := h
    · exact ⟨b, false, .inl ⟨k, hk, rfl⟩⟩
    · exact ⟨b, true, .inr ⟨hk, rfl⟩⟩
  | ldStVx x => obtain rfl := h; exact ⟨s.getV x, c, rfl⟩
  | ldB _ | ldMemVx _ => obtain ⟨ha, rfl⟩ := h; exact ⟨b, c, ha, rfl⟩
  | ldVxMem _ => obtain ⟨ha, rfl⟩ := h; exact ⟨b, c, ha, (setRegsFrom_withSoundWait ..).symm⟩
  | _ => obtain rfl := h; exact ⟨b, c, rfl⟩

end Sys2Proof.Machine

end

/-! ## The statements about the state -/

section

namespace Sys2Proof.Machine

/-- Settles O1, field by field. -/
theorem resetValues : Obligations.ResetValues := by
  unfold Obligations.ResetValues
  refine ⟨by decide, rfl, rfl, rfl, by decide, fun _ => rfl, fun y x => ?_, rfl, rfl, fun k => ?_,
    rfl, rfl, rfl⟩
  · exact pixel_clearFb_eq State.reset y x
  · simp [State.keyDown, State.reset]

/-- Settles O2: reset memory is empty, and no stack entry is live. -/
theorem resetMeetsInvariant : Obligations.ResetMeetsInvariant := reset_inv

/-- Settles O3: `Effect.mem_wf`, `Effect.stackBound`, and the table of `pc` with its bound. -/
theorem stepKeepsInvariant : Obligations.StepKeepsInvariant :=
  fun _ _ hs h => step_inv hs h

/-- Settles O4, by cases on the operation; a faulting step writes only inside memory. -/
theorem hostOperationsKeepInvariant : Obligations.HostOperationsKeepInvariant :=
  fun op _ hs => hostStep_inv op hs

/-- Settles O5: the invariant holds along every schedule. -/
theorem pcNeverOverflowsInAnyRun : Obligations.PcNeverOverflowsInAnyRun := by
  intro s hs
  obtain ⟨-, hpc, -⟩ := hs.inv
  refine ⟨hpc, fun t h => ?_⟩
  obtain ⟨-, hfetch, -⟩ := step_next h
  obtain ⟨-, hpc', -⟩ := step_inv hs.inv h
  exact ⟨hfetch, hpc'⟩

/-- Settles O20, from the effect of the instruction at `pc` on the advanced state. -/
theorem pcAfterACycle : Obligations.PcAfterACycle := by
  refine ⟨rfl, fun s t h => ?_⟩
  obtain ⟨-, hpc, he⟩ := step_next h
  refine ⟨he.pc_eq hpc, fun n hn => ?_⟩
  rw [hn] at he
  exact he.call_pushes hpc

/-- Settles O21: only LD DT,VX and LD ST,VX write a timer, and nothing writes the keypad. -/
theorem cycleNeverTicksNorWritesKeys : Obligations.CycleNeverTicksNorWritesKeys := by
  intro s t h
  obtain ⟨hf, -, he⟩ := step_next h
  refine ⟨?_, ?_, ?_, ?_, ?_⟩
  · by_cases hi : .dt ∈ writtenParts (nextInstr s)
    · obtain ⟨x, hx⟩ := dt_mem_writtenParts.1 hi
      rw [hx] at he
      obtain rfl := he
      exact .inr ⟨x, hx, rfl⟩
    · exact .inl (step_keeps h hi (by decide))
  · by_cases hi : .st ∈ writtenParts (nextInstr s)
    · obtain ⟨x, hx⟩ := st_mem_writtenParts.1 hi
      rw [hx] at he
      obtain rfl := he
      exact .inr ⟨x, hx, rfl⟩
    · exact .inl (step_keeps h hi (by decide))
  · exact (step_keeps h (not_mem_writtenParts (by decide)) (by decide)).sameOn
  · exact he.keepsBut .started (not_mem_writtenParts (by decide))
  · have hkeep : t.fault = s.fault :=
      step_keeps h (p := .fault) (not_mem_writtenParts (by decide)) (by decide)
    rw [hkeep, hf]

/-- Settles O22, from the registers each effect writes. -/
theorem registersChangeOnlyAsDestinationOrFlag : Obligations.RegistersChangeOnlyAsDestinationOrFlag :=
  fun i s t _ h hd hf => ((exec_next_iff i s t).1 h).getV_eq hd hf

/-- Settles O23, from the frame of every instruction. -/
theorem indexAndStackHaveTheirOwnWriters : Obligations.IndexAndStackHaveTheirOwnWriters := by
  intro i s t h
  refine ⟨fun hldI haddI hldF => ?_, fun hret hcall => ?_, fun hcall => ?_⟩
  · refine (exec_keeps h (p := .index) ?_).sameOn
    simp [index_mem_writtenParts, hldI, haddI, hldF]
  · refine (exec_keeps h (p := .sp) ?_).sameOn
    simp [sp_mem_writtenParts, hret, hcall]
  · refine (exec_keeps h (p := .stack) ?_).sameOn
    simp [stack_mem_writtenParts, hcall]

/-- Settles O24, from the frame of every instruction. -/
theorem memoryAndFramebufferHaveTheirOwnWriters : Obligations.MemoryAndFramebufferHaveTheirOwnWriters := by
  intro i s t h
  refine ⟨fun hldB hldMemVx => ?_, fun hcls hdrw => ?_⟩
  · refine (exec_keeps h (p := .mem) ?_).sameOn
    simp [mem_mem_writtenParts, hldB, hldMemVx]
  · refine (exec_keeps h (p := .fb) ?_).sameOn
    simp [fb_mem_writtenParts, hcls, hdrw]

/-- Settles O26: every effect commutes with giving `ST` and `kwait` other values. -/
theorem soundTimerAndWaitStatusAreNeverRead : Obligations.SoundTimerAndWaitStatusAreNeverRead := by
  intro i s t b c h
  obtain ⟨b', c', hu⟩ := ((exec_next_iff i s t).1 h).withSoundWait b c
  exact ⟨t.withSoundWait b' c', (exec_next_iff ..).2 hu, (keepsBut_withSoundWait t b' c').frame⟩

end Sys2Proof.Machine

end

/-! ## Memory: the checked accesses, and what a store leaves (rules R41, R42, R52) -/

section

namespace Sys2Proof.Machine

variable {s t : State}

/-! ### One checked write (rule R42) -/

theorem memWriteByte_eq (s : State) (a : Nat) (b : Byte) :
    memWriteByte s a b = if a < 4096 then .ok (s.setMem (s.mem.write a b)) else .error .addressOutOfRange :=
  rfl

/-! ### The bytes of the two stores (rules R122, R123) -/

/-- LD B stores its digits one after the other from `I` on. -/
theorem storedByte_ldB (x : Reg) (s : State) (a : Nat) :
    storedByte (.ldB x) s a =
      if effAddr s 0 ≤ a ∧ a < effAddr s 0 + (bcdDigits (s.getV x)).length then
        some ((bcdDigits (s.getV x)).getD (a - effAddr s 0) 0#8)
      else none := by
  simp only [storedByte, effAddr_add s 1, effAddr_add s 2, show (bcdDigits (s.getV x)).length = 3 from rfl]
  by_cases hin : effAddr s 0 ≤ a ∧ a < effAddr s 0 + 3
  · obtain rfl | rfl | rfl : a = effAddr s 0 ∨ a = effAddr s 0 + 1 ∨ a = effAddr s 0 + 2 := by omega
    all_goals simp [bcdDigits]
  · rw [if_neg hin, if_neg (by omega), if_neg (by omega), if_neg (by omega)]

/-- LD [I] stores its registers one after the other from `I` on. -/
theorem storedByte_ldMemVx (x : Reg) (s : State) (a : Nat) :
    storedByte (.ldMemVx x) s a =
      if effAddr s 0 ≤ a ∧ a < effAddr s 0 + (regsUpTo s x).length then
        some ((regsUpTo s x).getD (a - effAddr s 0) 0#8)
      else none := by
  simp only [storedByte, effAddr_add s x.toNat, regsUpTo_length]
  by_cases hin : effAddr s 0 ≤ a ∧ a ≤ effAddr s 0 + x.toNat
  · rw [if_pos hin, if_pos (by omega), regsUpTo_getD s x _ (by omega)]
  · rw [if_neg hin, if_neg (by omega)]

/-! ### Memory after an instruction -/

/-- After any instruction a byte of memory is the one it stored there, or else the one before. -/
theorem Effect.read_mem_eq {i : Instr} (h : Effect i s t) (hwf : s.mem.wf = true) (a : Nat) :
    t.mem.read a = byteAfter i s a := by
  cases i with
  | ldB x =>
    obtain ⟨hlt, rfl⟩ := h
    have hlen : (bcdDigits (s.getV x)).length = 3 := rfl
    rw [effAddr_add] at hlt
    rw [State.setMem_mem, Memory.read_writeList hwf (by rw [hlen, Config.memSize]; omega), byteAfter,
      storedByte_ldB]
    split <;> rfl
  | ldMemVx x =>
    obtain ⟨hlt, rfl⟩ := h
    rw [effAddr_add] at hlt
    rw [State.setMem_mem, Memory.read_writeList hwf (by rw [regsUpTo_length, Config.memSize]; omega),
      byteAfter, storedByte_ldMemVx]
    split <;> rfl
  | _ =>
    rw [byteAfter_of_none rfl]
    exact h.keepsBut.frame .mem (by simp [writtenParts]) a

/-! ### From one cycle to the next -/

/-- A cycle that answers a next state leaves no fault latched. -/
theorem fault_eq_none_of_step_next (h : step s = .next t) : t.fault = none := by
  obtain ⟨hf, -, -⟩ := step_next h
  have hkeep : t.fault = s.fault :=
    step_keeps h (p := .fault) (not_mem_writtenParts (by decide)) (by decide)
  rw [hkeep, hf]

/-- With no fault latched, a cycle runs the word it fetches (rule R80). -/
theorem step_of_fetch {w : Word} (hf : s.fault = none) (h : fetch s = .ok w) :
    step s = exec (decode w) s.enterExecute := by
  rw [step, cycleWith, hf]
  simp only [h, bindFault_ok, decode]

end Sys2Proof.Machine

end

/-! ## The statements about memory -/

section

namespace Sys2Proof.Machine

/-- Settles O42, from the bound each access checks and the read after a write. -/
theorem memoryAccessesAreBoundsChecked : Obligations.MemoryAccessesAreBoundsChecked := by
  refine ⟨fun s a n hn => ⟨fun h => ?_, fun h => ?_⟩,
    fun s a => ⟨fun h => ?_, fun h => ?_, fun h => ?_, fun h => ?_⟩,
    fun s a b => ⟨fun h => ?_, fun h => ?_⟩⟩
  · rw [memReadBytes_eq, if_neg (by omega)]
  · rw [memReadBytes_eq, if_pos (by omega)]
    exact ⟨_, rfl, by simp, fun k hk => by simp [hk]⟩
  · rw [memReadByte_eq, if_neg (by omega)]
  · rw [memReadByte_eq, if_pos h]
  · rw [memReadWord_eq, if_neg (by omega)]
  · rw [memReadWord_eq, if_pos h, wordOfBytes]
  · rw [memWriteByte_eq, if_neg (by omega)]
  · rw [memWriteByte_eq, if_pos h]
    exact ⟨_, rfl, (keepsBut_setMem s _).frame,
      fun hwf => ⟨Memory.wf_write hwf h, fun c => Memory.read_write hwf⟩⟩

/-- Settles O47: the next fetch reads the bytes `Effect.read_mem_eq` gives, and with no fault latched
the next cycle runs them. -/
theorem storeIsSeenByTheNextFetch : Obligations.StoreIsSeenByTheNextFetch := by
  intro s t hwf h
  obtain ⟨-, hpc, he⟩ := step_next h
  have hmem : ∀ a : Nat, t.mem.read a = byteAfter (nextInstr s) s a := fun a =>
    (he.read_mem_eq hwf a).trans (byteAfter_enterExecute ..)
  refine ⟨hmem, fun x hx => ?_, fun w hlt hw => ?_⟩
  · rw [he.pc_eq hpc]
    obtain hx | hx := hx <;> rw [hx] <;> rfl
  · have hfetch : fetch t = .ok w := by
      rw [fetch_eq, if_pos (by omega), hmem, hmem, wordOfBytes, hw]
    exact ⟨hfetch, step_of_fetch (fault_eq_none_of_step_next h) hfetch⟩

end Sys2Proof.Machine

end

/-! ## The words of the opcode map, field by field (rules R61, R64) -/

section

namespace Sys2Proof

open Laws
open Laws.EncodeFields (fieldsOf)

variable (w v : Word)

/-! ### A word is its fields -/

theorem opOf_append_nnnOf : opOf w ++ nnnOf w = w := by
  have h := BitVec.extractLsb'_append_extractLsb'_eq_extractLsb' (x := w) (len₁ := 12) (len₂ := 4)
    (Nat.zero_add 12).symm
  exact h.trans (extract_all w)

theorem xOf_append_nnOf : xOf w ++ nnOf w = nnnOf w :=
  BitVec.extractLsb'_append_extractLsb'_eq_extractLsb' (Nat.zero_add 8).symm

theorem yOf_append_nOf : yOf w ++ nOf w = nnOf w :=
  BitVec.extractLsb'_append_extractLsb'_eq_extractLsb' (Nat.zero_add 4).symm

theorem opOf_append_xOf_append_nnOf : opOf w ++ xOf w ++ nnOf w = w := by
  rw [BitVec.append_assoc, xOf_append_nnOf, BitVec.cast_eq, opOf_append_nnnOf]

theorem opOf_append_xOf_append_yOf_append_nOf : opOf w ++ xOf w ++ yOf w ++ nOf w = w := by
  rw [BitVec.append_assoc, yOf_append_nOf, BitVec.cast_eq, opOf_append_xOf_append_nnOf]

variable {w v}

theorem eq_of_nnn (hop : opOf w = opOf v) (hnnn : nnnOf w = nnnOf v) : w = v := by
  rw [← opOf_append_nnnOf w, hop, hnnn, opOf_append_nnnOf]

theorem eq_of_xnn (hop : opOf w = opOf v) (hx : xOf w = xOf v) (hnn : nnOf w = nnOf v) : w = v := by
  rw [← opOf_append_xOf_append_nnOf w, hop, hx, hnn, opOf_append_xOf_append_nnOf]

theorem eq_of_xyn (hop : opOf w = opOf v) (hx : xOf w = xOf v) (hy : yOf w = yOf v)
    (hn : nOf w = nOf v) : w = v := by
  rw [← opOf_append_xOf_append_yOf_append_nOf w, hop, hx, hy, hn, opOf_append_xOf_append_yOf_append_nOf]

variable (w v)

/-! ### Masks keep and clear whole fields -/

theorem opOf_and : opOf (w &&& v) = opOf w &&& opOf v := BitVec.extractLsb'_and

theorem xOf_and : xOf (w &&& v) = xOf w &&& xOf v := BitVec.extractLsb'_and

theorem yOf_and : yOf (w &&& v) = yOf w &&& yOf v := BitVec.extractLsb'_and

theorem nOf_and : nOf (w &&& v) = nOf w &&& nOf v := BitVec.extractLsb'_and

theorem nnOf_and : nnOf (w &&& v) = nnOf w &&& nnOf v := BitVec.extractLsb'_and

theorem nnnOf_and : nnnOf (w &&& v) = nnnOf w &&& nnnOf v := BitVec.extractLsb'_and

theorem and_0xF (a : Nibble) : a &&& 0xF#4 = a := BitVec.and_allOnes

theorem and_0xFF (a : Byte) : a &&& 0xFF#8 = a := BitVec.and_allOnes

/-- The mask `F000` selects by family. The fields of `v` are written as extractions, which `simp`
evaluates for a literal `v`. -/
@[simp] theorem and_0xF000_eq_iff (hv : v &&& 0xF000#16 = v) :
    w &&& 0xF000#16 = v ↔ opOf w = v.extractLsb' 12 4 := by
  have hop (u : Word) : opOf (u &&& 0xF000#16) = opOf u := (opOf_and ..).trans (and_0xF _)
  have hnnn (u : Word) : nnnOf (u &&& 0xF000#16) = 0#12 := (nnnOf_and ..).trans BitVec.and_zero
  rw [← hv]
  exact ⟨fun h => by rw [← hop w, h]; rfl, fun h => eq_of_nnn ((hop w).trans h) (by rw [hnnn, hnnn])⟩

/-- The mask `F00F` selects by family and `N`. -/
@[simp] theorem and_0xF00F_eq_iff (hv : v &&& 0xF00F#16 = v) :
    w &&& 0xF00F#16 = v ↔ opOf w = v.extractLsb' 12 4 ∧ nOf w = v.extractLsb' 0 4 := by
  have hop (u : Word) : opOf (u &&& 0xF00F#16) = opOf u := (opOf_and ..).trans (and_0xF _)
  have hx (u : Word) : xOf (u &&& 0xF00F#16) = 0#4 := (xOf_and ..).trans BitVec.and_zero
  have hy (u : Word) : yOf (u &&& 0xF00F#16) = 0#4 := (yOf_and ..).trans BitVec.and_zero
  have hn (u : Word) : nOf (u &&& 0xF00F#16) = nOf u := (nOf_and ..).trans (and_0xF _)
  rw [← hv]
  exact ⟨fun h => ⟨by rw [← hop w, h]; rfl, by rw [← hn w, h]; rfl⟩,
    fun ⟨h, k⟩ => eq_of_xyn ((hop w).trans h) (by rw [hx, hx]) (by rw [hy, hy]) ((hn w).trans k)⟩

/-- The mask `F0FF` selects by family and `NN`. -/
@[simp] theorem and_0xF0FF_eq_iff (hv : v &&& 0xF0FF#16 = v) :
    w &&& 0xF0FF#16 = v ↔ opOf w = v.extractLsb' 12 4 ∧ nnOf w = v.extractLsb' 0 8 := by
  have hop (u : Word) : opOf (u &&& 0xF0FF#16) = opOf u := (opOf_and ..).trans (and_0xF _)
  have hx (u : Word) : xOf (u &&& 0xF0FF#16) = 0#4 := (xOf_and ..).trans BitVec.and_zero
  have hnn (u : Word) : nnOf (u &&& 0xF0FF#16) = nnOf u := (nnOf_and ..).trans (and_0xFF _)
  rw [← hv]
  exact ⟨fun h => ⟨by rw [← hop w, h]; rfl, by rw [← hnn w, h]; rfl⟩,
    fun ⟨h, k⟩ => eq_of_xnn ((hop w).trans h) (by rw [hx, hx]) ((hnn w).trans k)⟩

/-- The mask `FFFF` selects by family and `NNN`. -/
@[simp] theorem and_0xFFFF_eq_iff :
    w &&& 0xFFFF#16 = v ↔ opOf w = v.extractLsb' 12 4 ∧ nnnOf w = v.extractLsb' 0 12 := by
  rw [show w &&& 0xFFFF#16 = w from BitVec.and_allOnes]
  exact ⟨fun h => by rw [h]; exact ⟨rfl, rfl⟩, fun ⟨h, k⟩ => eq_of_nnn h k⟩

theorem and_0xFFF0 : w &&& 0xFFF0#16 = opOf w ++ xOf w ++ yOf w ++ 0x0#4 := by
  apply eq_of_xyn
  · rw [opOf_xyn, opOf_and]; exact and_0xF _
  · rw [xOf_xyn, xOf_and]; exact and_0xF _
  · rw [yOf_xyn, yOf_and]; exact and_0xF _
  · rw [nOf_xyn, nOf_and]; exact BitVec.and_zero

theorem and_0xFF0F : w &&& 0xFF0F#16 = opOf w ++ xOf w ++ 0x0#4 ++ nOf w := by
  apply eq_of_xyn
  · rw [opOf_xyn, opOf_and]; exact and_0xF _
  · rw [xOf_xyn, xOf_and]; exact and_0xF _
  · rw [yOf_xyn, yOf_and]; exact BitVec.and_zero
  · rw [nOf_xyn, nOf_and]; exact and_0xF _

/-! ### The rows of the opcode map (rules R64 to R68) -/

/-- A word that selects a row holds the fields of the row's instruction. -/
theorem selects_fields (ext : Bool) : ∀ r ∈ opcodeMap, r.selects ext w = true →
    (r.make w).wellFormedWith ext = true ∧ fieldsOf w (r.make w) := by
  cases ext <;> simp [opcodeMap, opcodeMapLow, opcodeMapAlu, opcodeMapHigh, opcodeMapMisc,
    OpcodeRow.selects, fieldsOf, Instr.wellFormedWith]

/-- The families with a secondary selector (rule R63). -/
@[simp] def selectorFamilies : List Nibble := [0x0#4, 0x8#4, 0xE#4, 0xF#4]

/-- The selectors of family 0x0 (rule R65). -/
@[simp] def selectors0 : List Addr := [0x0E0#12, 0x0EE#12]

/-- The selectors of family 0x8 (rule R66). -/
@[simp] def selectors8 : List Nibble := [0x0#4, 0x1#4, 0x2#4, 0x3#4, 0x4#4, 0x5#4, 0x6#4, 0x7#4, 0xE#4]

/-- The selectors of family 0xE, all with `EXT_OPS` only (rule R67). -/
@[simp] def selectorsE : List Byte := [0x9E#8, 0xA1#8]

/-- The selectors of family 0xF that do not need `EXT_OPS` (rule R68). -/
@[simp] def selectorsF : List Byte := [0x1E#8, 0x33#8, 0x55#8, 0x65#8]

/-- The selectors of family 0xF with `EXT_OPS` only (rules R68, R140). -/
@[simp] def extSelectorsF : List Byte := [0x07#8, 0x0A#8, 0x15#8, 0x18#8, 0x29#8]

variable {w} {ext : Bool}

theorem any_selects_opcodeMapLow : (opcodeMapLow.any fun r => r.selects ext w) = true ↔
    opOf w = 0x0#4 ∧ nnnOf w ∈ selectors0 ∨
      opOf w ∈ [0x1#4, 0x2#4, 0x3#4, 0x4#4, 0x5#4, 0x6#4, 0x7#4] := by
  simp [opcodeMapLow, OpcodeRow.selects, and_or_left, or_assoc]

theorem any_selects_opcodeMapAlu : (opcodeMapAlu.any fun r => r.selects ext w) = true ↔
    opOf w = 0x8#4 ∧ nOf w ∈ selectors8 := by
  simp [opcodeMapAlu, OpcodeRow.selects, and_or_left]

theorem any_selects_opcodeMapHigh : (opcodeMapHigh.any fun r => r.selects ext w) = true ↔
    opOf w ∈ [0x9#4, 0xA#4, 0xB#4, 0xC#4, 0xD#4] ∨
      opOf w = 0xE#4 ∧ ext = true ∧ nnOf w ∈ selectorsE := by
  simp [opcodeMapHigh, OpcodeRow.selects, and_or_left, or_assoc, and_left_comm]

theorem any_selects_opcodeMapMisc : (opcodeMapMisc.any fun r => r.selects ext w) = true ↔
    opOf w = 0xF#4 ∧ (nnOf w ∈ selectorsF ∨ ext = true ∧ nnOf w ∈ extSelectorsF) := by
  by_cases hop : opOf w = 0xF#4
  · simp [opcodeMapMisc, OpcodeRow.selects, hop, and_or_left, or_left_comm, or_comm]
  · simp [opcodeMapMisc, OpcodeRow.selects, hop]

/-- The recognised words: in the families 0x0, 0x8, 0xE and 0xF those with a selector of the map, in
every other family all. -/
theorem recognisedWith_iff : recognisedWith ext w = true ↔
    (opOf w = 0x0#4 ∧ nnnOf w ∈ selectors0) ∨
    (opOf w = 0x8#4 ∧ nOf w ∈ selectors8) ∨
    (opOf w = 0xE#4 ∧ ext = true ∧ nnOf w ∈ selectorsE) ∨
    (opOf w = 0xF#4 ∧ (nnOf w ∈ selectorsF ∨ ext = true ∧ nnOf w ∈ extSelectorsF)) ∨
    opOf w ∉ selectorFamilies := by
  have hother : ∀ a : Nibble, a ∉ selectorFamilies ↔
      a ∈ [0x1#4, 0x2#4, 0x3#4, 0x4#4, 0x5#4, 0x6#4, 0x7#4] ∨ a ∈ [0x9#4, 0xA#4, 0xB#4, 0xC#4, 0xD#4] := by
    decide
  simp only [recognisedWith, opcodeMap, List.any_append, Bool.or_eq_true, any_selects_opcodeMapLow,
    any_selects_opcodeMapAlu, any_selects_opcodeMapHigh, any_selects_opcodeMapMisc, hother]
  exact Iff.of_eq (by ac_rfl)

/-- No two rows are selected by one word: their values differ where both masks look. -/
theorem opcodeMap_pairwise_disjoint :
    opcodeMap.Pairwise fun r q => r.value &&& q.mask ≠ q.value &&& r.mask := by
  decide

theorem selected_values_agree {r q : OpcodeRow} (hr : r.selects ext w = true) (hq : q.selects ext w = true) :
    r.value &&& q.mask = q.value &&& r.mask := by
  simp only [OpcodeRow.selects, Bool.and_eq_true, beq_iff_eq] at hr hq
  rw [← hr.2, ← hq.2, BitVec.and_assoc, BitVec.and_assoc, BitVec.and_comm r.mask]

theorem length_filter_selects_le_one : (opcodeMap.filter fun r => r.selects ext w).length ≤ 1 := by
  have hpair := opcodeMap_pairwise_disjoint.filter fun r => r.selects ext w
  have hsel : ∀ r ∈ opcodeMap.filter fun r => r.selects ext w, r.selects ext w = true := fun r hr =>
    (List.mem_filter.1 hr).2
  generalize (opcodeMap.filter fun r => r.selects ext w) = rows at hpair hsel
  match rows with
  | [] | [_] => simp
  | r :: q :: _ =>
    have hne := List.rel_of_pairwise_cons hpair List.mem_cons_self
    exact absurd (selected_values_agree (hsel r (by simp)) (hsel q (by simp))) hne

/-! ### The decoder, family by family (rules R65 to R68) -/

theorem decodeWith_family0 (hop : opOf w = 0x0#4) : decodeWith ext w = decode0 w := by
  rw [decodeWith, hop]; rfl

theorem decodeWith_family8 (hop : opOf w = 0x8#4) : decodeWith ext w = decode8 w := by
  rw [decodeWith, hop]; rfl

theorem decodeWith_familyE (hop : opOf w = 0xE#4) : decodeWith ext w = decodeE ext w := by
  rw [decodeWith, hop]; rfl

theorem decodeWith_familyF (hop : opOf w = 0xF#4) : decodeWith ext w = decodeF ext w := by
  rw [decodeWith, hop]; rfl

theorem decode0_eq_nop (h : nnnOf w ∉ selectors0) : decode0 w = .nop w := by
  unfold decode0
  split <;> simp_all [← BitVec.toNat_inj]

theorem decode8_eq_nop (h : nOf w ∉ selectors8) : decode8 w = .nop w := by
  unfold decode8
  split <;> simp_all [← BitVec.toNat_inj]

theorem decodeE_eq_nop (h : ¬(ext = true ∧ nnOf w ∈ selectorsE)) : decodeE ext w = .nop w := by
  unfold decodeE
  split <;> simp_all [← BitVec.toNat_inj]

theorem decodeF_eq_nop (h : ¬(nnOf w ∈ selectorsF ∨ ext = true ∧ nnOf w ∈ extSelectorsF)) :
    decodeF ext w = .nop w := by
  unfold decodeF
  split <;> simp_all [← BitVec.toNat_inj]

/-- A word that selects no row of the opcode map decodes to `NOP*` (rule R63). -/
theorem decodeWith_of_not_recognised (h : recognisedWith ext w = false) : decodeWith ext w = .nop w := by
  rw [← Bool.not_eq_true, recognisedWith_iff] at h
  by_cases h0 : opOf w = 0x0#4
  · rw [decodeWith_family0 h0, decode0_eq_nop fun hs => h (.inl ⟨h0, hs⟩)]
  by_cases h8 : opOf w = 0x8#4
  · rw [decodeWith_family8 h8, decode8_eq_nop fun hs => h (.inr (.inl ⟨h8, hs⟩))]
  by_cases hE : opOf w = 0xE#4
  · rw [decodeWith_familyE hE, decodeE_eq_nop fun hs => h (.inr (.inr (.inl ⟨hE, hs⟩)))]
  by_cases hF : opOf w = 0xF#4
  · rw [decodeWith_familyF hF, decodeF_eq_nop fun hs => h (.inr (.inr (.inr (.inl ⟨hF, hs⟩))))]
  · exact absurd (.inr (.inr (.inr (.inr (by simp [h0, h8, hE, hF]))))) h

/-- The decoder reads an instruction off its fields. -/
theorem decodeWith_of_fields {i : Instr} (h : fieldsOf w i) (hi : i.wellFormedWith ext = true) :
    decodeWith ext w = i := by
  cases i with
  | cls | ret => obtain ⟨hop, hnnn⟩ := h; rw [decodeWith_family0 hop, decode0, hnnn]; rfl
  | jp _ | call _ | ldI _ | jpV0 _ => obtain ⟨hop, rfl⟩ := h; rw [decodeWith, hop]; rfl
  | seImm _ _ | sneImm _ _ | ldImm _ _ | addImm _ _ | rnd _ _ | seReg _ _ | sneReg _ _ =>
    obtain ⟨hop, rfl, rfl⟩ := h; rw [decodeWith, hop]; rfl
  | drw _ _ _ => obtain ⟨hop, rfl, rfl, rfl⟩ := h; rw [decodeWith, hop]; rfl
  | ldReg _ _ | orReg _ _ | andReg _ _ | xorReg _ _ | addReg _ _ | sub _ _ | subn _ _ =>
    obtain ⟨hop, rfl, rfl, hn⟩ := h; rw [decodeWith_family8 hop, decode8, hn]; rfl
  | shr _ | shl _ => obtain ⟨hop, rfl, hn⟩ := h; rw [decodeWith_family8 hop, decode8, hn]; rfl
  | skp _ | sknp _ =>
    obtain ⟨hop, rfl, hnn⟩ := h
    obtain rfl : ext = true := hi
    rw [decodeWith_familyE hop, decodeE, hnn]; rfl
  | ldVxDt _ | ldVxK _ | ldDtVx _ | ldStVx _ | ldF _ =>
    obtain ⟨hop, rfl, hnn⟩ := h
    obtain rfl : ext = true := hi
    rw [decodeWith_familyF hop, decodeF, hnn]; rfl
  | addI _ | ldB _ | ldMemVx _ | ldVxMem _ =>
    obtain ⟨hop, rfl, hnn⟩ := h; rw [decodeWith_familyF hop, decodeF, hnn]; rfl
  | nop _ =>
    obtain rfl : w = _ := h
    exact decodeWith_of_not_recognised (by simpa [Instr.wellFormedWith] using hi)

/-- A recognised word selects a row, and an unrecognised one is its own instruction: so every word
decodes to a well-formed instruction whose fields it holds. -/
theorem decodeWith_fields_wellFormed (ext : Bool) (w : Word) :
    fieldsOf w (decodeWith ext w) ∧ (decodeWith ext w).wellFormedWith ext = true := by
  cases hrec : recognisedWith ext w with
  | true =>
    obtain ⟨r, hr, hsel⟩ := List.any_eq_true.1 hrec
    obtain ⟨hwf, hf⟩ := selects_fields w ext r hr hsel
    rw [decodeWith_of_fields hf hwf]
    exact ⟨hf, hwf⟩
  | false =>
    rw [decodeWith_of_not_recognised hrec]
    exact ⟨rfl, by simp [Instr.wellFormedWith, hrec]⟩

/-! ### The encoder -/

/-- The law of every instruction's word, for all of them. -/
theorem fieldsOf_encode : ∀ i : Instr, fieldsOf (encode i) i
  | .cls => EncodeFields.cls
  | .ret => EncodeFields.ret
  | .jp n => EncodeFields.jp n
  | .call n => EncodeFields.call n
  | .seImm x n => EncodeFields.seImm x n
  | .sneImm x n => EncodeFields.sneImm x n
  | .seReg x y => EncodeFields.seReg x y
  | .ldImm x n => EncodeFields.ldImm x n
  | .addImm x n => EncodeFields.addImm x n
  | .ldReg x y => EncodeFields.ldReg x y
  | .orReg x y => EncodeFields.orReg x y
  | .andReg x y => EncodeFields.andReg x y
  | .xorReg x y => EncodeFields.xorReg x y
  | .addReg x y => EncodeFields.addReg x y
  | .sub x y => EncodeFields.sub x y
  | .shr x => EncodeFields.shr x
  | .subn x y => EncodeFields.subn x y
  | .shl x => EncodeFields.shl x
  | .sneReg x y => EncodeFields.sneReg x y
  | .ldI n => EncodeFields.ldI n
  | .jpV0 n => EncodeFields.jpV0 n
  | .rnd x n => EncodeFields.rnd x n
  | .drw x y n => EncodeFields.drw x y n
  | .skp x => EncodeFields.skp x
  | .sknp x => EncodeFields.sknp x
  | .ldVxDt x => EncodeFields.ldVxDt x
  | .ldVxK x => EncodeFields.ldVxK x
  | .ldDtVx x => EncodeFields.ldDtVx x
  | .ldStVx x => EncodeFields.ldStVx x
  | .addI x => EncodeFields.addI x
  | .ldF x => EncodeFields.ldF x
  | .ldB x => EncodeFields.ldB x
  | .ldMemVx x => EncodeFields.ldMemVx x
  | .ldVxMem x => EncodeFields.ldVxMem x
  | .nop w => EncodeFields.nop w

theorem decodeWith_encode {i : Instr} (hi : i.wellFormedWith ext = true) :
    decodeWith ext (encode i) = i := decodeWith_of_fields (fieldsOf_encode i) hi

/-- Encoding an instruction whose fields a word holds gives the word with its ignored bits 0. -/
theorem encode_of_fields {i : Instr} (h : fieldsOf w i) (hi : i.wellFormedWith ext = true) :
    encode i =
      if opOf w = 0x5#4 ∨ opOf w = 0x9#4 then w &&& 0xFFF0#16
      else if opOf w = 0x8#4 ∧ (nOf w = 0x6#4 ∨ nOf w = 0xE#4) then w &&& 0xFF0F#16
      else w := by
  cases i with
  | seReg _ _ | sneReg _ _ =>
    obtain ⟨hop, rfl, rfl⟩ := h
    rw [if_pos (by simp [hop]), and_0xFFF0, hop]; rfl
  | shr _ | shl _ =>
    obtain ⟨hop, rfl, hn⟩ := h
    rw [if_neg (by simp [hop]), if_pos (by simp [hop, hn]), and_0xFF0F, hop, hn]; rfl
  | cls | ret =>
    obtain ⟨hop, hsel⟩ := h
    rw [if_neg (by simp [hop]), if_neg (by simp [hop]), ← opOf_append_nnnOf w, hop, hsel]; rfl
  | jp _ | call _ | ldI _ | jpV0 _ =>
    obtain ⟨hop, rfl⟩ := h
    rw [if_neg (by simp [hop]), if_neg (by simp [hop]), encode, ← hop, opOf_append_nnnOf]
  | seImm _ _ | sneImm _ _ | ldImm _ _ | addImm _ _ | rnd _ _ =>
    obtain ⟨hop, rfl, rfl⟩ := h
    rw [if_neg (by simp [hop]), if_neg (by simp [hop]), encode, ← hop, opOf_append_xOf_append_nnOf]
  | drw _ _ _ =>
    obtain ⟨hop, rfl, rfl, rfl⟩ := h
    rw [if_neg (by simp [hop]), if_neg (by simp [hop]), encode, ← hop, opOf_append_xOf_append_yOf_append_nOf]
  | ldReg _ _ | orReg _ _ | andReg _ _ | xorReg _ _ | addReg _ _ | sub _ _ | subn _ _ =>
    obtain ⟨hop, rfl, rfl, hn⟩ := h
    rw [if_neg (by simp [hop]), if_neg (by simp [hn]), encode, ← hop, ← hn,
      opOf_append_xOf_append_yOf_append_nOf]
  | skp _ | sknp _ | ldVxDt _ | ldVxK _ | ldDtVx _ | ldStVx _ | addI _ | ldF _ | ldB _ | ldMemVx _
  | ldVxMem _ =>
    obtain ⟨hop, rfl, hsel⟩ := h
    rw [if_neg (by simp [hop]), if_neg (by simp [hop]), encode, ← hop, ← hsel,
      opOf_append_xOf_append_nnOf]
  | nop _ =>
    obtain rfl : w = _ := h
    have hrec : ¬ recognisedWith ext w = true := by simpa [Instr.wellFormedWith] using hi
    rw [recognisedWith_iff] at hrec
    rw [if_neg, if_neg]
    · rfl
    · rintro ⟨hop, hn⟩
      exact hrec (.inr (.inl ⟨hop, by obtain hn | hn := hn <;> simp [hn]⟩))
    · intro hop
      exact hrec (.inr (.inr (.inr (.inr (by obtain hop | hop := hop <;> simp [hop])))))

end Sys2Proof

end

/-! ## The statements about the encoding -/

section

namespace Sys2Proof

/-- Settles O6: the word of an instruction holds its fields, and the decoder reads them off. -/
theorem decodeOfEncodeIsTheInstruction : Obligations.DecodeOfEncodeIsTheInstruction :=
  fun _ hi => decodeWith_encode hi

/-- Settles O7: every word holds the fields of its instruction, and the encoder writes them back. -/
theorem encodeOfDecodeIsTheCanonicalWord : Obligations.EncodeOfDecodeIsTheCanonicalWord := by
  intro w
  obtain ⟨hf, hwf⟩ := decodeWith_fields_wellFormed Config.extOps w
  exact ⟨hwf, encode_of_fields hf hwf⟩

/-- Settles O8: a selected row's instruction has its fields in the word; the rows are disjoint. -/
theorem decodeFollowsTheOpcodeMap : Obligations.DecodeFollowsTheOpcodeMap := by
  refine fun ext w => ⟨fun r hr hsel => ?_, decodeWith_of_not_recognised, length_filter_selects_le_one⟩
  obtain ⟨hwf, hf⟩ := selects_fields w ext r hr hsel
  exact decodeWith_of_fields hf hwf

/-- Settles O9: the selectors of the map decode by their fields, the others by the family's default. -/
theorem secondarySelectorsDecode : Obligations.SecondarySelectorsDecode := by
  refine ⟨fun w => rfl, fun ext n => ?_, fun ext x y => ?_, fun ext x y n hn => ?_, fun x => ?_,
    fun x nn hnn => ?_, fun x nn => ?_, fun ext x => ?_, fun x => ?_, fun x nn hnn => ?_,
    fun ext x nn hnn => ?_⟩
  · split
    · next h => subst h; exact decodeWith_encode (i := .cls) rfl
    · split
      · next h => subst h; exact decodeWith_encode (i := .ret) rfl
      · rw [decodeWith_family0 (opOf_nnn ..), decode0_eq_nop]
        simp [nnnOf_nnn, *]
  · exact ⟨decodeWith_encode (i := .ldReg x y) rfl, decodeWith_encode (i := .orReg x y) rfl,
      decodeWith_encode (i := .andReg x y) rfl, decodeWith_encode (i := .xorReg x y) rfl,
      decodeWith_encode (i := .addReg x y) rfl, decodeWith_encode (i := .sub x y) rfl,
      decodeWith_of_fields (i := .shr x) ⟨opOf_xyn .., xOf_xyn .., nOf_xyn ..⟩ rfl,
      decodeWith_encode (i := .subn x y) rfl,
      decodeWith_of_fields (i := .shl x) ⟨opOf_xyn .., xOf_xyn .., nOf_xyn ..⟩ rfl⟩
  · rw [decodeWith_family8 (opOf_xyn ..), decode8_eq_nop]
    rw [nOf_xyn]
    revert n
    decide
  · exact ⟨decodeWith_encode (i := .skp x) rfl, decodeWith_encode (i := .sknp x) rfl⟩
  · rw [decodeWith_familyE (opOf_xnn ..), decodeE_eq_nop]
    rw [nnOf_xnn]
    exact fun h => hnn h.2
  · rw [decodeWith_familyE (opOf_xnn ..), decodeE_eq_nop]
    exact fun h => Bool.false_ne_true h.1
  · exact ⟨decodeWith_encode (i := .addI x) rfl, decodeWith_encode (i := .ldB x) rfl,
      decodeWith_encode (i := .ldMemVx x) rfl, decodeWith_encode (i := .ldVxMem x) rfl⟩
  · exact ⟨decodeWith_encode (i := .ldVxDt x) rfl, decodeWith_encode (i := .ldVxK x) rfl,
      decodeWith_encode (i := .ldDtVx x) rfl, decodeWith_encode (i := .ldStVx x) rfl,
      decodeWith_encode (i := .ldF x) rfl⟩
  · rw [decodeWith_familyF (opOf_xnn ..), decodeF_eq_nop]
    rw [nnOf_xnn]
    revert nn
    decide
  · rw [decodeWith_familyF (opOf_xnn ..), decodeF_eq_nop]
    rw [nnOf_xnn]
    simp only [selectorsF, extSelectorsF, List.mem_cons, List.not_mem_nil, or_false] at hnn ⊢
    tauto

/-- Settles O10: the fields of the two skips leave the low nibble out, and the encoder writes 0 there. -/
theorem registerSkipsIgnoreLowNibble : Obligations.RegisterSkipsIgnoreLowNibble :=
  fun x y _ => ⟨decodeWith_of_fields (i := .seReg x y) ⟨opOf_xyn .., xOf_xyn .., yOf_xyn ..⟩ rfl,
    decodeWith_of_fields (i := .sneReg x y) ⟨opOf_xyn .., xOf_xyn .., yOf_xyn ..⟩ rfl,
    nOf_xyn .., nOf_xyn ..⟩

/-- Settles O11, word by word. -/
theorem sampleWordsDecode : Obligations.SampleWordsDecode := by
  unfold Obligations.SampleWordsDecode
  decide

end Sys2Proof

end

/-! ## No refusal (rules R63, R160) -/

section

namespace Sys2Proof.Machine

theorem bindFault_ne_refused {α : Type} (a : Except Fault α) (k : α → Result) (r : Refusal)
    (hk : ∀ x, k x ≠ .refused r) : bindFault a k ≠ .refused r := by
  cases a with
  | ok x => exact hk x
  | error f => exact nofun

theorem exec_ne_refused (i : Instr) (s : State) (r : Refusal) : exec i s ≠ .refused r := by
  cases i with
  | ret | call _ | drw _ _ _ | skp _ | sknp _ | ldB _ | ldMemVx _ | ldVxMem _ =>
    exact bindFault_ne_refused _ _ r nofun
  | ldVxK x =>
    rw [exec, execLdVxK]
    split <;> exact nofun
  | _ => exact nofun

theorem step_ne_refused (s : State) (r : Refusal) : step s ≠ .refused r := by
  rw [step, cycleWith]
  split
  · exact nofun
  · exact bindFault_ne_refused _ _ r fun w => exec_ne_refused _ _ r

/-- Settles O19: every word decodes, and no arm of `exec` answers a refusal. -/
theorem noStepIsRefused : Obligations.NoStepIsRefused := by
  refine ⟨fun hi lo rest => ⟨decode (wordOfBytes hi lo), rfl, ?_⟩, exec_ne_refused, step_ne_refused⟩
  obtain ⟨-, hwf⟩ := decodeWith_fields_wellFormed Config.extOps (wordOfBytes hi lo)
  exact hwf

end Sys2Proof.Machine

end

/-! ## The cycle and what it leaves for the host (rules R80, R81, R87, R155, R156) -/

section

namespace Sys2Proof.Machine

variable {s t : State} {f : Fault}

/-! ### Fetch (rule R81) -/

theorem fetch_ok (hpc : s.pc.toNat ≤ 4094) : fetch s = .ok (wordAt s s.pc.toNat) := by
  rw [fetch_eq, if_pos (by omega), wordAt]

theorem fetch_error (hpc : 4095 ≤ s.pc.toNat) : fetch s = .error .addressOutOfRange := by
  rw [fetch_eq, if_neg (by omega)]

/-! ### The branches of a cycle (rule R80) -/

/-- A latched fault is answered again (rule R156). -/
theorem step_of_latched (hf : s.fault = some f) : step s = .fault f := by
  rw [step, cycleWith, hf]
  rfl

/-- A fetch outside memory raises. -/
theorem step_of_fetch_error (hf : s.fault = none) (h : fetch s = .error f) : step s = .fault f := by
  rw [step, cycleWith, hf]
  simp only [h]
  rfl

/-! ### The state the host is left with (rules R155, R156) -/

theorem invokeStep_of_latched (hf : s.fault = some f) : invokeStep s = (.fault f, s) := by
  rw [invokeStep, hf]

theorem invokeStep_of_fault (hf : s.fault = none) (h : step s = .fault f) :
    invokeStep s = (.fault f, faultedState f s) := by
  rw [invokeStep, hf]
  simp only [h]

theorem invokeStep_of_next (h : step s = .next t) : invokeStep s = (.success, t) := by
  obtain ⟨hf, -, -⟩ := step_next h
  rw [invokeStep, hf]
  simp only [h]

/-- A cycle that raises sets `started` and the latch, whichever stage raised. -/
theorem faultedState_latch_started (f : Fault) (s : State) :
    (faultedState f s).fault = some f ∧ (faultedState f s).started = true := by
  unfold faultedState
  split
  · exact ⟨rfl, rfl⟩
  · exact ⟨rfl, keepsBut_leaveBehind _ s.enterExecute .started (by decide)⟩

/-- A fetch fault sets `started` and the latch, and nothing else. -/
theorem faultedState_of_fetch_error {e : Fault} (h : fetch s = .error e) (f : Fault) :
    faultedState f s = s.setStarted.latchFault f := by
  rw [faultedState, h]

theorem keepsBut_latchFault_setStarted (s : State) (f : Fault) :
    KeepsBut [.fault, .started] s (s.setStarted.latchFault f) := by
  intro p hp
  cases p <;> simp [Keeps] at hp ⊢

/-! ### The statements -/

/-- Settles O13, branch by branch: the latch, the fetch, then `exec`; a raise leaves `faultedState`. -/
theorem stepRunsTheDecodedInstruction : Obligations.StepRunsTheDecodedInstruction := by
  intro s
  refine ⟨fun f hf => step_of_latched hf, fun hf hpc => step_of_fetch_error hf (fetch_error hpc),
    fun hf hpc => ⟨step_of_fetch hf (fetch_ok hpc), toNat_pc_enterExecute hpc, rfl, rfl,
      (keepsBut_enterExecute s).frame⟩, fun f h => ?_, fun t h => invokeStep_of_next h⟩
  cases hf : s.fault with
  | some g =>
    obtain rfl : g = f := by simpa [step_of_latched hf] using h
    rw [invokeStep_of_latched hf]
    exact ⟨rfl, hf, nofun⟩
  | none =>
    obtain ⟨hlatch, hstarted⟩ := faultedState_latch_started f s
    rw [invokeStep_of_fault hf h]
    exact ⟨rfl, hlatch, fun _ => hstarted⟩

/-- Settles O14: the fetch checks its two addresses, and its fault comes before the advance. -/
theorem fetchFaultChangesOnlyLatchAndStarted : Obligations.FetchFaultChangesOnlyLatchAndStarted := by
  intro s
  refine ⟨fun hpc => fetch_ok hpc, fun hpc => fetch_error hpc, fun hf hpc => ?_⟩
  have hfetch := fetch_error hpc
  rw [invokeStep_of_fault hf (step_of_fetch_error hf hfetch), faultedState_of_fetch_error hfetch]
  exact ⟨rfl, rfl, rfl, (keepsBut_latchFault_setStarted s _).frame⟩

/-- Settles O55: `NOP*` leaves the advanced state as it is. -/
theorem unrecognisedWordsChangeNothing : Obligations.UnrecognisedWordsChangeNothing := by
  refine ⟨fun w h => decodeWith_of_not_recognised h,
    fun w s => ⟨s, rfl, (keepsBut_refl s []).frame⟩, fun s t w h hw => ?_⟩
  obtain ⟨-, hpc, he⟩ := step_next h
  rw [hw] at he
  obtain rfl := he
  exact ⟨toNat_pc_enterExecute hpc, rfl, rfl, (keepsBut_enterExecute s).frame⟩

end Sys2Proof.Machine

end

/-! ## Control transfer: calls, returns and skips (rules R90 to R99) -/

section

namespace Sys2Proof.Machine

variable {s t u : State} {i : Instr} {n : Addr}

/-- A cycle answers what the instruction it fetches does to the advanced state (rule R80). -/
theorem step_of_effect (hf : s.fault = none) (hpc : s.pc.toNat ≤ 4094) (hi : nextInstr s = i)
    (he : Effect i s.enterExecute t) : step s = .next t := by
  subst hi
  rw [step_of_fetch hf (fetch_ok hpc)]
  exact (exec_next_iff ..).2 he

/-! ### RET and CALL (rules R90, R92) -/

theorem exists_effect_ret (hsp : 0 < s.sp.val) : ∃ t, Effect .ret s t := ⟨_, hsp, rfl⟩

theorem exists_effect_call (n : Addr) (hsp : s.sp.val < 16) : ∃ t, Effect (.call n) s t := ⟨_, hsp, rfl⟩

theorem exec_ret_of_empty (hsp : s.sp.val = 0) : exec .ret s = .fault .stackUnderflow := by
  rw [exec, execRet, pop_empty s hsp, bindFault_error]

theorem exec_call_of_full (n : Addr) (hsp : s.sp.val = 16) : exec (.call n) s = .fault .stackOverflow := by
  rw [exec, execCall, push_full s _ hsp, bindFault_error]

/-- RET takes the newest entry off the stack. -/
theorem Effect.ret_pops (h : Effect .ret s t) {k : Fin 16} (hk : s.sp.val = k.val + 1) :
    t.pc = s.stack[k] ∧ t.sp.val = k.val := by
  obtain ⟨_, rfl⟩ := h
  simp [hk]

/-- CALL puts `pc` on top of the stack and leaves the entries below and above. -/
theorem Effect.call_stack (h : Effect (.call n) s t) :
    t.pc = zextAddr n ∧ t.sp.val = s.sp.val + 1 ∧
      ∀ k : Fin 16, t.stack[k] = if k.val = s.sp.val then s.pc else s.stack[k] := by
  obtain ⟨hsp, rfl⟩ := h
  refine ⟨rfl, rfl, fun k => ?_⟩
  simp [Vector.getElem_set, eq_comm]

/-- RET right after CALL comes back to the pushed `pc`; of the stack only the dead entry differs
(rule R99). -/
theorem Effect.ret_after_call (hc : Effect (.call n) s t) (hr : Effect .ret t.enterExecute u) :
    u.pc = s.pc ∧ u.sp = s.sp ∧ ∀ k : Fin 16, k.val ≠ s.sp.val → u.stack[k] = s.stack[k] := by
  obtain ⟨-, htop, hstack⟩ := hc.call_stack
  have hsp : s.sp.val < 16 := by omega
  obtain ⟨hpc, husp⟩ := hr.ret_pops (k := ⟨s.sp.val, hsp⟩) htop
  refine ⟨?_, Fin.ext husp, fun k hk => ?_⟩
  · rw [hpc]
    exact (hstack _).trans (if_pos rfl)
  · have hkeep : u.stack = t.stack := hr.keepsBut .stack (by decide)
    rw [hkeep, hstack, if_neg hk]

/-- RET right after CALL restores `sp`, so `pc`, the dead entry and what every cycle writes are all that
can differ. -/
theorem Effect.keepsBut_ret_after_call (hc : Effect (.call n) s t) (hr : Effect .ret t.enterExecute u) :
    KeepsBut [.pc, .stack, .started, .kwait] s u := by
  obtain ⟨-, hsp, -⟩ := hc.ret_after_call hr
  have hkeeps : KeepsBut [.pc, .stack, .sp, .started, .kwait] s u :=
    (hc.keepsBut.append ((keepsBut_enterExecute t).append hr.keepsBut)).mono (by simp [writtenParts])
  intro p hp
  by_cases hpsp : p = .sp
  · subst hpsp
    exact hsp
  · exact hkeeps p (by simpa [hpsp] using hp)

/-! ### Skips (rules R93 to R96, R98) -/

/-- What a skip does, for any instruction that is one. -/
theorem exec_of_skipIf {c : Bool} {p : Prop} [Decidable p] (h : exec i s = .next (skipIf c s))
    (hc : c = true ↔ p) :
    ∃ t : State, exec i s = .next t ∧ Frame [.pc] s t ∧ t.pc = if p then s.pc + 2#16 else s.pc := by
  refine ⟨_, h, (keepsBut_skipIf s c).frame, ?_⟩
  rw [skipIf_eq, State.setPc_pc]
  simp only [hc]

end Sys2Proof.Machine

end

/-! ## The statements about control transfer -/

section

namespace Sys2Proof.Machine

/-- Settles O32: the first cycle has the effect of CALL, the second that of RET, and the two together
are `Effect.ret_after_call` from the advanced state. -/
theorem callThenReturnComesBack : Obligations.CallThenReturnComesBack := by
  intro s n hf hpc hcall hn hret hsp
  obtain ⟨t, ht⟩ : ∃ t, Effect (.call n) s.enterExecute t := exists_effect_call n hsp
  obtain ⟨htpc, htsp, -⟩ := ht.call_stack
  obtain ⟨u, hu⟩ : ∃ u, Effect .ret t.enterExecute u := exists_effect_ret (htsp ▸ Nat.succ_pos _)
  have hst : step s = .next t := by
    refine step_of_effect hf hpc ?_ ht
    rw [nextInstr, hcall]
    exact decodeWith_encode (i := .call n) rfl
  have hmem : t.mem = s.mem := ht.keepsBut .mem (by simp [writtenParts])
  have htu : step t = .next u := by
    have hat : t.pc.toNat = n.toNat := by rw [htpc, toNat_zextAddr]
    refine step_of_effect (fault_eq_none_of_step_next hst) (hat ▸ hn) ?_ hu
    rw [nextInstr, hat, wordAt, hmem, ← wordAt, hret]
    exact decodeWith_encode (i := .ret) rfl
  obtain ⟨hupc, husp, hstack⟩ := ht.ret_after_call hu
  refine ⟨t, u, hst, htu, ?_, husp, hstack, ?_, ?_, ?_⟩
  · rw [hupc, toNat_pc_enterExecute hpc]
  · exact hu.keepsBut .started (by decide)
  · exact hu.keepsBut .kwait (by decide)
  · exact (((keepsBut_enterExecute s).append (ht.keepsBut_ret_after_call hu)).mono (by simp)).frame

/-- Settles O27, on a stack with an entry and on an empty one. -/
theorem returnPopsIntoPc : Obligations.ReturnPopsIntoPc := by
  refine ⟨decodeWith_encode (i := .ret) rfl, fun s k hk => ?_, fun s => exec_ret_of_empty⟩
  obtain ⟨t, ht⟩ : ∃ t, Effect .ret s t := exists_effect_ret (hk ▸ Nat.succ_pos _)
  obtain ⟨hpc, hsp⟩ := ht.ret_pops hk
  exact ⟨t, (exec_next_iff ..).2 ht, hpc, hsp, (ht.keepsBut.mono (by simp [writtenParts])).frame⟩

/-- Settles O28. -/
theorem jumpSetsPc : Obligations.JumpSetsPc := fun n =>
  ⟨decodeWith_encode (i := .jp n) rfl, fun s => ⟨_, rfl, toNat_zextAddr n, (keepsBut_setPc s _).frame⟩⟩

/-- Settles O29, on a stack with room and on a full one. -/
theorem callPushesPcAndJumps : Obligations.CallPushesPcAndJumps := by
  refine fun n => ⟨decodeWith_encode (i := .call n) rfl, fun s k hk => ?_, fun s => exec_call_of_full n⟩
  obtain ⟨t, ht⟩ : ∃ t, Effect (.call n) s t := exists_effect_call n (hk ▸ k.isLt)
  obtain ⟨hpc, hsp, hstack⟩ := ht.call_stack
  refine ⟨t, (exec_next_iff ..).2 ht, ?_, hk ▸ hsp, ?_, fun j hj => ?_,
    (ht.keepsBut.mono (by simp [writtenParts])).frame⟩
  · rw [hpc, toNat_zextAddr]
  · rw [hstack, if_pos hk.symm]
  · rw [hstack, if_neg fun h => hj (Fin.ext (h.trans hk))]

/-- Settles O30: each skip is `skipIf` of its comparison, and `exec_of_skipIf` says what that does. -/
theorem skipsAddTwoToPc : Obligations.SkipsAddTwoToPc := by
  intro x y nn n
  obtain ⟨hse, hsne, -⟩ := registerSkipsIgnoreLowNibble x y n
  refine ⟨⟨decodeWith_encode (i := .seImm x nn) rfl, decodeWith_encode (i := .sneImm x nn) rfl, hse, hsne⟩,
    fun s => ⟨?_, ?_, ?_, ?_⟩⟩
  · exact exec_of_skipIf rfl beq_iff_eq
  · exact exec_of_skipIf rfl bne_iff_ne
  · exact exec_of_skipIf rfl beq_iff_eq
  · exact exec_of_skipIf rfl bne_iff_ne

/-- Settles O31: the 16-bit sum does not wrap. -/
theorem jumpWithOffsetAddsV0 : Obligations.JumpWithOffsetAddsV0 := fun n =>
  ⟨decodeWith_encode (i := .jpV0 n) rfl,
    fun s => ⟨_, rfl, toNat_jpV0_target n _, (keepsBut_setPc s _).frame⟩⟩

end Sys2Proof.Machine

end

/-! ## Register load, move, logic and arithmetic (rules R100 to R112) -/

section

namespace Sys2Proof.Machine

variable {s : State} {i : Instr} {x : Reg} {b : Byte} {c : Bool}

/-! ### The flag as a number (rule R12) -/

theorem toNat_flagByte (c : Bool) : (flagByte c).toNat = if c then 1 else 0 := by
  cases c <;> rfl

theorem toNat_flagByte_carryOut (a b : Byte) :
    (flagByte (carryOut a b)).toNat = if a.toNat + b.toNat > 255 then 1 else 0 := by
  simp [toNat_flagByte, carryOut]

theorem toNat_flagByte_noBorrow (a b : Byte) :
    (flagByte (noBorrow a b)).toNat = if b.toNat ≤ a.toNat then 1 else 0 := by
  simp [toNat_flagByte, noBorrow]

theorem toNat_flagByte_lowBit (a : Byte) : (flagByte (lowBit a)).toNat = a.toNat % 2 := by
  have hbit : lowBit a = decide (a.toNat % 2 = 1) := Nat.testBit_zero a.toNat
  rw [toNat_flagByte, hbit]
  simp only [decide_eq_true_eq]
  split <;> omega

theorem toNat_flagByte_highBit (a : Byte) : (flagByte (highBit a)).toNat = a.toNat / 128 := by
  have hbit : highBit a = decide (a.toNat / 128 % 2 = 1) := Nat.testBit_eq_decide_div_mod_eq
  have := a.isLt
  rw [toNat_flagByte, hbit]
  simp only [decide_eq_true_eq]
  split <;> omega

/-! ### Subtraction and shifts as numbers (rule R111) -/

theorem toNat_sub_byte (a b : Byte) : (a - b).toNat = (a.toNat + 256 - b.toNat) % 256 := by
  have := b.isLt
  rw [BitVec.toNat_sub]
  omega

theorem toNat_ushiftRight_one (a : Byte) : (a >>> 1).toNat = a.toNat / 2 := by
  rw [BitVec.toNat_ushiftRight, Nat.shiftRight_one]

theorem toNat_shiftLeft_one (a : Byte) : (a <<< 1).toNat = 2 * a.toNat % 256 := by
  rw [BitVec.toNat_shiftLeft, Nat.shiftLeft_eq, Nat.mul_comm]

/-- A flag has no bit above its lowest. -/
theorem flagByte_ushiftRight_one (c : Bool) : flagByte c >>> 1 = 0#8 := by
  cases c <;> rfl

theorem toNat_flagByte_shiftLeft_one (c : Bool) : (flagByte c <<< 1).toNat = 2 * (flagByte c).toNat := by
  cases c <;> rfl

/-! ### What is left after the writes -/

theorem getV_setFlag_flag (s : State) (c : Bool) : (s.setFlag c).getV 0xF#4 = flagByte c := by
  rw [getV_setFlag, flagReg, if_pos rfl]

theorem getV_setFlag_of_ne {r : Reg} (s : State) (c : Bool) (hr : r ≠ 0xF#4) :
    (s.setFlag c).getV r = s.getV r := by
  rw [getV_setFlag, flagReg, if_neg hr]

/-- An operand read after the flag write: the new flag where it is `VF`, else the old register
(rule R112). -/
theorem toNat_getV_setFlag (s : State) (r : Reg) (c : Bool) :
    ((s.setFlag c).getV r).toNat = if r = 0xF#4 then (flagByte c).toNat else (s.getV r).toNat := by
  rw [getV_setFlag, flagReg, apply_ite BitVec.toNat]

/-- An instruction that writes its destination and no flag. -/
theorem exec_of_setV {p : Byte → Prop} (h : exec i s = .next (s.setV x b)) (hb : p b) :
    ∃ t : State, exec i s = .next t ∧ p (t.getV x) ∧ (∀ r : Reg, r ≠ x → t.getV r = s.getV r) ∧
      Frame [.regs] s t := by
  refine ⟨_, h, ?_, fun r hr => ?_, (keepsBut_setV s x b).frame⟩
  · rwa [getV_setV, if_pos rfl]
  · rw [getV_setV, if_neg hr]

/-- An instruction that writes the flag and then its destination: the flag is left where the
destination is another register. -/
theorem exec_of_setFlag_setV (h : exec i s = .next ((s.setFlag c).setV x b)) :
    ∃ t : State, exec i s = .next t ∧ t.getV x = b ∧ (x ≠ 0xF#4 → t.getV 0xF#4 = flagByte c) ∧
      (∀ r : Reg, r ≠ x → r ≠ 0xF#4 → t.getV r = s.getV r) ∧ Frame [.regs] s t := by
  refine ⟨_, h, ?_, fun hx => ?_, fun r hr hF => ?_,
    ((keepsBut_setFlag s c).trans (keepsBut_setV _ x b)).frame⟩
  · rw [getV_setV, if_pos rfl]
  · rw [getV_setV, if_neg hx.symm, getV_setFlag_flag]
  · rw [getV_setV, if_neg hr, getV_setFlag_of_ne _ _ hF]

/-- The common part of SUB and SUBN: the difference of `a` and `b` goes to `x`, each of the two being
the flag `f` where it is `VF` (rule R112). -/
theorem exec_of_subInto {a b : Reg} {f : Nat} (h : exec i s = .next (subInto x a b (s.setFlag c)))
    (hf : (flagByte c).toNat = f) :
    ∃ t : State, exec i s = .next t ∧
      (a ≠ 0xF#4 → b ≠ 0xF#4 → (t.getV x).toNat = ((s.getV a).toNat + 256 - (s.getV b).toNat) % 256) ∧
      (a = 0xF#4 → b ≠ 0xF#4 → (t.getV x).toNat = (f + 256 - (s.getV b).toNat) % 256) ∧
      (a ≠ 0xF#4 → b = 0xF#4 → (t.getV x).toNat = ((s.getV a).toNat + 256 - f) % 256) ∧
      (a = 0xF#4 → b = 0xF#4 → t.getV x = 0#8) ∧
      (x ≠ 0xF#4 → (t.getV 0xF#4).toNat = f) ∧
      (∀ r : Reg, r ≠ x → r ≠ 0xF#4 → t.getV r = s.getV r) ∧ Frame [.regs] s t := by
  obtain ⟨t, ht, hval, hflag, hrest, hframe⟩ := exec_of_setFlag_setV h
  have hnum := congrArg BitVec.toNat hval
  rw [toNat_sub_byte, toNat_getV_setFlag, toNat_getV_setFlag, hf] at hnum
  refine ⟨t, ht, fun ha hb => ?_, fun ha hb => ?_, fun ha hb => ?_, fun ha hb => ?_, fun hx => ?_,
    hrest, hframe⟩
  · rwa [if_neg ha, if_neg hb] at hnum
  · rwa [if_pos ha, if_neg hb] at hnum
  · rwa [if_neg ha, if_pos hb] at hnum
  · rw [hval, ha, hb, BitVec.sub_self]
  · rw [hflag hx, hf]

end Sys2Proof.Machine

end

/-! ## The statements about register load, move, logic and arithmetic -/

section

namespace Sys2Proof.Machine

/-- Settles O34: each is one register write, of a sum modulo 256 for ADD. -/
theorem loadAddImmediateAndMove : Obligations.LoadAddImmediateAndMove := by
  refine fun x y nn => ⟨⟨decodeWith_encode (i := .ldImm x nn) rfl, decodeWith_encode (i := .addImm x nn) rfl,
    decodeWith_encode (i := .ldReg x y) rfl⟩, fun s => ⟨?_, ?_, ?_⟩⟩
  · exact exec_of_setV (p := (· = nn)) rfl rfl
  · exact exec_of_setV (p := fun v => v.toNat = ((s.getV x).toNat + nn.toNat) % 256) rfl
      (BitVec.toNat_add ..)
  · exact exec_of_setV (p := (· = s.getV y)) rfl rfl

/-- Settles O35: each is one register write, of a value the library describes bit by bit. -/
theorem logicIsBitwise : Obligations.LogicIsBitwise := by
  refine fun x y => ⟨⟨decodeWith_encode (i := .orReg x y) rfl, decodeWith_encode (i := .andReg x y) rfl,
    decodeWith_encode (i := .xorReg x y) rfl⟩, fun s => ⟨?_, ?_, ?_⟩⟩
  · exact exec_of_setV (p := fun v => ∀ k < 8, v.getLsbD k = ((s.getV x).getLsbD k || (s.getV y).getLsbD k))
      rfl fun _ _ => BitVec.getLsbD_or
  · exact exec_of_setV (p := fun v => ∀ k < 8, v.getLsbD k = ((s.getV x).getLsbD k && (s.getV y).getLsbD k))
      rfl fun _ _ => BitVec.getLsbD_and
  · exact exec_of_setV (p := fun v => ∀ k < 8, v.getLsbD k = ((s.getV x).getLsbD k ^^ (s.getV y).getLsbD k))
      rfl fun _ _ => BitVec.getLsbD_xor

/-- Settles O36: the carry is computed from the old registers and written last. -/
theorem addSetsCarry : Obligations.AddSetsCarry := by
  refine fun x y => ⟨decodeWith_encode (i := .addReg x y) rfl, fun s => ⟨_, rfl, fun hx => ?_, ?_,
    fun r hr hF => ?_, ((keepsBut_setV s _ _).trans (keepsBut_setFlag _ _)).frame⟩⟩
  · rw [getV_setFlag_of_ne _ _ hx, getV_setV, if_pos rfl, BitVec.toNat_add]
  · rw [getV_setFlag_flag, toNat_flagByte_carryOut]
  · rw [getV_setFlag_of_ne _ _ hF, getV_setV, if_neg hr]

/-- Settles O37: `exec_of_subInto` with the minuend as destination. -/
theorem subtractSetsNoBorrowFirst : Obligations.SubtractSetsNoBorrowFirst := by
  refine fun x y => ⟨decodeWith_encode (i := .sub x y) rfl, fun s f hf => ?_⟩
  obtain ⟨t, ht, hneither, hminuend, hsubtrahend, hboth, hflag, hrest, hframe⟩ :=
    exec_of_subInto (i := .sub x y) rfl ((toNat_flagByte_noBorrow ..).trans hf.symm)
  exact ⟨t, ht, fun hx hy => ⟨hneither hx hy, hflag hx⟩, fun hx hy => hx ▸ hminuend hx hy,
    fun hx hy => ⟨hsubtrahend hx hy, hflag hx⟩, fun hx hy => hx ▸ hboth hx hy,
    hrest, hframe⟩

/-- Settles O38: `exec_of_subInto` with the subtrahend as destination. -/
theorem reverseSubtractSetsNoBorrowFirst : Obligations.ReverseSubtractSetsNoBorrowFirst := by
  refine fun x y => ⟨decodeWith_encode (i := .subn x y) rfl, fun s f hf => ?_⟩
  obtain ⟨t, ht, hneither, hminuend, hsubtrahend, hboth, hflag, hrest, hframe⟩ :=
    exec_of_subInto (i := .subn x y) rfl ((toNat_flagByte_noBorrow ..).trans hf.symm)
  exact ⟨t, ht, fun hx hy => ⟨hneither hy hx, hflag hx⟩, fun hx hy => hx ▸ hsubtrahend hy hx,
    fun hx hy => ⟨hminuend hy hx, hflag hx⟩, fun hx hy => hx ▸ hboth hy hx,
    hrest, hframe⟩

/-- Settles O39: where X is F the shifted register is the flag just written, so SHR leaves 0 and SHL
twice the flag. -/
theorem shiftsMoveOneBitIntoTheFlag : Obligations.ShiftsMoveOneBitIntoTheFlag := by
  intro x y
  obtain ⟨-, -, hfamily8, -⟩ := secondarySelectorsDecode
  obtain ⟨-, -, -, -, -, -, hshr, -, hshl⟩ := hfamily8 Config.extOps x y
  refine ⟨⟨hshr, hshl⟩, fun s => ⟨?_, ?_⟩⟩
  · obtain ⟨t, ht, hval, hflag, hrest, hframe⟩ := exec_of_setFlag_setV (i := .shr x) (s := s) rfl
    refine ⟨t, ht, fun hx => ⟨?_, ?_⟩, fun hx => ?_, hrest, hframe⟩
    · rw [hval, getV_setFlag_of_ne _ _ hx, toNat_ushiftRight_one]
    · rw [hflag hx, toNat_flagByte_lowBit]
    · subst hx
      rw [hval, getV_setFlag_flag, flagByte_ushiftRight_one]
  · obtain ⟨t, ht, hval, hflag, hrest, hframe⟩ := exec_of_setFlag_setV (i := .shl x) (s := s) rfl
    refine ⟨t, ht, fun hx => ⟨?_, ?_⟩, fun hx => ?_, hrest, hframe⟩
    · rw [hval, getV_setFlag_of_ne _ _ hx, toNat_shiftLeft_one]
    · rw [hflag hx, toNat_flagByte_highBit]
    · subst hx
      rw [hval, getV_setFlag_flag, toNat_flagByte_shiftLeft_one, toNat_flagByte_highBit]

end Sys2Proof.Machine

end

/-! ## Index register and memory transfer (rules R120 to R125) -/

section

namespace Sys2Proof.Machine

variable {s t u : State} {x r : Reg}

/-! ### The effective address (rule R125) -/

theorem effAddr_le_iff {j k : Nat} : effAddr s j ≤ effAddr s k ↔ j ≤ k := Nat.add_le_add_iff_left

theorem effAddr_inj {j k : Nat} : effAddr s j = effAddr s k ↔ j = k := Nat.add_left_cancel_iff

theorem effAddr_eq_of_index_eq (h : u.index = s.index) (k : Nat) : effAddr u k = effAddr s k := by
  rw [effAddr, effAddr, h]

/-! ### What a store leaves, address by address (rules R122, R123) -/

theorem Effect.read_mem_of_stored {i : Instr} {a : Nat} {b : Byte} (h : Effect i s t) (hwf : s.mem.wf = true)
    (hb : storedByte i s a = some b) : t.mem.read a = b :=
  (h.read_mem_eq hwf a).trans (byteAfter_of_some hb)

theorem Effect.read_mem_of_not_stored {i : Instr} {a : Nat} (h : Effect i s t) (hwf : s.mem.wf = true)
    (hb : storedByte i s a = none) : t.mem.read a = s.mem.read a :=
  (h.read_mem_eq hwf a).trans (byteAfter_of_none hb)

/-- LD B stores hundreds, tens and ones at `I`, `I + 1` and `I + 2`. -/
theorem storedByte_ldB_digits (x : Reg) (s : State) :
    storedByte (.ldB x) s (effAddr s 0) = some (BitVec.ofNat 8 ((s.getV x).toNat / 100)) ∧
      storedByte (.ldB x) s (effAddr s 1) = some (BitVec.ofNat 8 ((s.getV x).toNat / 10 % 10)) ∧
      storedByte (.ldB x) s (effAddr s 2) = some (BitVec.ofNat 8 ((s.getV x).toNat % 10)) := by
  simp [storedByte, effAddr_inj]

theorem storedByte_ldB_outside {a : Nat} (ha : a < effAddr s 0 ∨ effAddr s 2 < a) :
    storedByte (.ldB x) s a = none := by
  have hfirst := effAddr_add s 1
  have hlast := effAddr_add s 2
  rw [storedByte, if_neg (by omega), if_neg (by omega), if_neg (by omega)]

/-- LD B leaves the digits as numbers: each fits its byte. -/
theorem Effect.ldB_digits (h : Effect (.ldB x) s t) (hwf : s.mem.wf = true) :
    (t.mem.read (effAddr s 0)).toNat = (s.getV x).toNat / 100 ∧
      (t.mem.read (effAddr s 1)).toNat = (s.getV x).toNat / 10 % 10 ∧
      (t.mem.read (effAddr s 2)).toNat = (s.getV x).toNat % 10 := by
  obtain ⟨hhundreds, htens, hones⟩ := storedByte_ldB_digits x s
  have hbyte := (s.getV x).isLt
  rw [h.read_mem_of_stored hwf hhundreds, h.read_mem_of_stored hwf htens, h.read_mem_of_stored hwf hones]
  simp only [BitVec.toNat_ofNat]
  omega

/-- LD [I] stores `V[r]` at `I + r`. -/
theorem storedByte_ldMemVx_reg (hr : r.toNat ≤ x.toNat) :
    storedByte (.ldMemVx x) s (effAddr s r.toNat) = some (s.getV r) := by
  have hat : effAddr s r.toNat - effAddr s 0 = r.toNat := by rw [effAddr_add, Nat.add_sub_cancel_left]
  rw [storedByte, if_pos ⟨effAddr_le_iff.2 (Nat.zero_le _), effAddr_le_iff.2 hr⟩, hat, BitVec.ofNat_toNat,
    BitVec.setWidth_eq]

theorem storedByte_ldMemVx_outside {a : Nat} (ha : a < effAddr s 0 ∨ effAddr s x.toNat < a) :
    storedByte (.ldMemVx x) s a = none := by
  rw [storedByte, if_neg (by omega)]

/-! ### What a register load reads (rule R124) -/

theorem Effect.ldVxMem_getV (h : Effect (.ldVxMem x) s t) (hr : r.toNat ≤ x.toNat) :
    t.getV r = s.mem.read (effAddr s r.toNat) := by
  obtain ⟨_, rfl⟩ := h
  have hx := x.isLt
  have hlt : r.toNat < x.toNat + 1 := by omega
  rw [getV_setRegsFrom _ _ _ (by simp; omega), if_pos (by simpa using hr)]
  simp [List.getD_eq_getElem?_getD, hlt]

/-! ### Transfers that reach outside memory (rules R41, R42) -/

theorem memWriteBytes_outside {a : Nat} {bs : List Byte} (hne : bs ≠ []) (h : 4096 < a + bs.length) :
    memWriteBytes s a bs = .error .addressOutOfRange := by
  rw [memWriteBytes_eq _ _ _ (.inr hne), if_neg (by omega)]

theorem exec_ldB_outside (h : 4096 ≤ effAddr s 2) : exec (.ldB x) s = .fault .addressOutOfRange := by
  rw [effAddr_add] at h
  have hlen : (bcdDigits (s.getV x)).length = 3 := rfl
  rw [exec, execLdB, memWriteBytes_outside (List.ne_nil_of_length_eq_add_one hlen) (by omega), bindFault_error]

theorem exec_ldMemVx_outside (h : 4096 ≤ effAddr s x.toNat) :
    exec (.ldMemVx x) s = .fault .addressOutOfRange := by
  have hlen := regsUpTo_length s x
  rw [effAddr_add] at h
  rw [exec, execLdMemVx, memWriteBytes_outside (List.ne_nil_of_length_eq_add_one hlen) (by omega),
    bindFault_error]

theorem exec_ldVxMem_outside (h : 4096 ≤ effAddr s x.toNat) :
    exec (.ldVxMem x) s = .fault .addressOutOfRange := by
  rw [effAddr_add] at h
  rw [exec, execLdVxMem, memReadBytes_eq, regCount, if_neg (by omega), bindFault_error]

end Sys2Proof.Machine

end

/-! ## The statements about the index register and memory transfer -/

section

namespace Sys2Proof.Machine

/-- Settles O46: the dump put `V[r]` at `I + r`, and the load reads it there. -/
theorem loadAfterDumpRestoresRegisters : Obligations.LoadAfterDumpRestoresRegisters := by
  intro x s t u hwf ht hmem hindex
  have hdump : Effect (.ldMemVx x) s t := (exec_next_iff ..).1 ht
  have ⟨hlt, _⟩ := hdump
  obtain ⟨w, hload⟩ : ∃ w, Effect (.ldVxMem x) u w := ⟨_, by rwa [effAddr_eq_of_index_eq hindex], rfl⟩
  refine ⟨w, (exec_next_iff ..).2 hload, fun r hr => ?_⟩
  rw [hload.ldVxMem_getV hr, hmem, effAddr_eq_of_index_eq hindex]
  exact hdump.read_mem_of_stored hwf (storedByte_ldMemVx_reg hr)

/-- Settles O40: each is one write of `I`, of a 16-bit sum for ADD. -/
theorem setIndexAndAddToIndex : Obligations.SetIndexAndAddToIndex := by
  refine fun n x => ⟨⟨decodeWith_encode (i := .ldI n) rfl, decodeWith_encode (i := .addI x) rfl⟩,
    fun s => ⟨⟨_, rfl, toNat_zextAddr n, (keepsBut_setIndex s _).frame⟩,
      ⟨_, rfl, ?_, (keepsBut_setIndex s _).frame⟩⟩⟩
  rw [State.setIndex_index, BitVec.toNat_add, toNat_zextByte]

/-- Settles O43, inside memory and outside. -/
theorem storeBcdWritesThreeDigits : Obligations.StoreBcdWritesThreeDigits := by
  refine fun x => ⟨decodeWith_encode (i := .ldB x) rfl, fun s hlt => ?_, fun s => exec_ldB_outside⟩
  obtain ⟨t, ht⟩ : ∃ t, Effect (.ldB x) s t := ⟨_, hlt, rfl⟩
  refine ⟨t, (exec_next_iff ..).2 ht, ht.keepsBut.frame, fun hwf => ?_⟩
  obtain ⟨hhundreds, htens, hones⟩ := ht.ldB_digits hwf
  exact ⟨hhundreds, htens, hones,
    fun a ha => ht.read_mem_of_not_stored hwf (storedByte_ldB_outside ha)⟩

/-- Settles O44, inside memory and outside. -/
theorem registerDumpStoresV0ToVx : Obligations.RegisterDumpStoresV0ToVx := by
  refine fun x => ⟨decodeWith_encode (i := .ldMemVx x) rfl, fun s hlt => ?_, fun s => exec_ldMemVx_outside⟩
  obtain ⟨t, ht⟩ : ∃ t, Effect (.ldMemVx x) s t := ⟨_, hlt, rfl⟩
  exact ⟨t, (exec_next_iff ..).2 ht, ht.keepsBut.frame, fun hwf =>
    ⟨fun r hr => ht.read_mem_of_stored hwf (storedByte_ldMemVx_reg hr),
      fun a ha => ht.read_mem_of_not_stored hwf (storedByte_ldMemVx_outside ha)⟩⟩

/-- Settles O45, inside memory and outside; the registers above X are no destination of the load. -/
theorem registerLoadReadsV0ToVx : Obligations.RegisterLoadReadsV0ToVx := by
  refine fun x => ⟨decodeWith_encode (i := .ldVxMem x) rfl, fun s hlt => ?_, fun s => exec_ldVxMem_outside⟩
  obtain ⟨t, ht⟩ : ∃ t, Effect (.ldVxMem x) s t := ⟨_, hlt, rfl⟩
  exact ⟨t, (exec_next_iff ..).2 ht, ht.keepsBut.frame, fun r hr => ht.ldVxMem_getV hr,
    fun r hr => ht.getV_eq (decide_eq_false (Nat.not_le_of_lt hr)) fun _ => rfl⟩

end Sys2Proof.Machine

end

/-! ## What drawing a sprite does to the framebuffer and the flag (rule R132) -/

section

namespace Sys2Proof.Machine

variable {s t u : State} {m m' : Nat → Nat → Bool} {x y : Reg} {n : Nibble}

/-! ### Cells XORed with a mask -/

/-- Some lit cell of the framebuffer lies under the mask: the XOR would erase it. -/
def Collides (m : Nat → Nat → Bool) (s : State) : Prop :=
  ∃ row col : Nat, row < 32 ∧ col < 64 ∧ s.pixel row col = true ∧ m row col = true

/-- Going from `s` to `t` XORs the cells with a mask, and writes 1 to `VF` if that erases a lit cell:
what drawing any part of a sprite does. -/
structure XorsMask (m : Nat → Nat → Bool) (s t : State) : Prop where
  pixel : ∀ row col : Nat, row < 32 → col < 64 → t.pixel row col = (s.pixel row col ^^ m row col)
  flag_of_collides : Collides m s → t.getV flagReg = 1#8
  flag_of_not_collides : ¬ Collides m s → t.getV flagReg = s.getV flagReg

theorem pixel_outside {row col : Nat} (h : ¬ (row < 32 ∧ col < 64)) (s : State) :
    s.pixel row col = false := dif_neg h

theorem collides_congr (h : ∀ row col : Nat, row < 32 → col < 64 →
    (s.pixel row col = true ∧ m row col = true ↔ t.pixel row col = true ∧ m' row col = true)) :
    Collides m s ↔ Collides m' t :=
  exists₂_congr fun row col => and_congr_right fun hr => and_congr_right fun hc => h row col hr hc

/-- Only the mask's cells inside the grid count. -/
theorem XorsMask.congr (h : XorsMask m s t)
    (hm : ∀ row col : Nat, row < 32 → col < 64 → m' row col = m row col) : XorsMask m' s t := by
  have hcol : Collides m' s ↔ Collides m s :=
    collides_congr fun row col hr hc => by rw [hm row col hr hc]
  exact ⟨fun row col hr hc => by rw [hm row col hr hc, h.pixel row col hr hc],
    fun hc => h.flag_of_collides (hcol.1 hc), fun hc => h.flag_of_not_collides (mt hcol.2 hc)⟩

theorem xorsMask_refl (hm : ∀ row col : Nat, row < 32 → col < 64 → m row col = false) :
    XorsMask m s s where
  pixel row col hr hc := by rw [hm row col hr hc, Bool.xor_false]
  flag_of_collides := by
    rintro ⟨row, col, hr, hc, -, h⟩
    rw [hm row col hr hc] at h
    contradiction
  flag_of_not_collides _ := rfl

/-- Two masks in turn are their union, where they do not overlap: what the second erases was lit before
the first. -/
theorem XorsMask.trans (h : XorsMask m s t) (k : XorsMask m' t u)
    (hd : ∀ row col : Nat, m row col = true → m' row col = false) :
    XorsMask (fun row col => m row col || m' row col) s u := by
  have hsecond : Collides m' t ↔ Collides m' s := collides_congr fun row col hr hc => by
    rw [h.pixel row col hr hc]
    cases hm : m row col with
    | false => rw [Bool.xor_false]
    | true => simp [hd row col hm]
  have hunion : Collides (fun row col => m row col || m' row col) s ↔ Collides m s ∨ Collides m' s := by
    simp only [Collides, Bool.or_eq_true, and_or_left, exists_or]
  refine ⟨fun row col hr hc => ?_, fun hc => ?_, fun hc => ?_⟩
  · rw [k.pixel row col hr hc, h.pixel row col hr hc]
    cases hm : m row col with
    | false => rw [Bool.xor_false, Bool.false_or]
    | true => rw [hd row col hm, Bool.xor_false, Bool.true_or]
  · by_cases hk : Collides m' t
    · exact k.flag_of_collides hk
    · have hs : Collides m s := (hunion.1 hc).resolve_right (mt hsecond.2 hk)
      rw [k.flag_of_not_collides hk, h.flag_of_collides hs]
  · rw [hunion, not_or] at hc
    rw [k.flag_of_not_collides (mt hsecond.1 hc.2), h.flag_of_not_collides hc.1]

/-! ### The part of a sprite drawn so far -/

/-- The 1-bits of the top `h` rows and the left `w` columns of a sprite with the given rows at row `y0`,
column `x0`. The whole sprite is `spriteOn`. -/
def spritePart (rows : Nat → Byte) (y0 x0 h w row col : Nat) : Bool :=
  decide (y0 ≤ row ∧ row < y0 + h ∧ x0 ≤ col ∧ col < x0 + w)
    && (rows (row - y0)).getLsbD (7 - (col - x0))

theorem spritePart_eq_true {rows : Nat → Byte} {y0 x0 h w row col : Nat} :
    spritePart rows y0 x0 h w row col = true ↔
      (y0 ≤ row ∧ row < y0 + h ∧ x0 ≤ col ∧ col < x0 + w) ∧
        (rows (row - y0)).getLsbD (7 - (col - x0)) = true := by
  rw [spritePart, Bool.and_eq_true, decide_eq_true_eq]

theorem spritePart_eq_false {rows : Nat → Byte} {y0 x0 h w row col : Nat}
    (hcell : ¬(y0 ≤ row ∧ row < y0 + h ∧ x0 ≤ col ∧ col < x0 + w)) :
    spritePart rows y0 x0 h w row col = false := by
  rw [spritePart, decide_eq_false hcell, Bool.false_and]

theorem spriteOn_eq_spritePart (s : State) (x y : Reg) (n : Nibble) :
    spriteOn s x y n =
      spritePart (fun k => s.mem.read (effAddr s k)) (originY s y) (originX s x) n.toNat 8 := rfl

/-- One more row below (rule R132). -/
theorem spritePart_succ_height (rows : Nat → Byte) (y0 x0 h w row col : Nat) :
    spritePart rows y0 x0 (h + 1) w row col =
      (spritePart rows y0 x0 h w row col || spritePart (fun _ => rows h) (y0 + h) x0 1 w row col) := by
  rw [Bool.eq_iff_iff, Bool.or_eq_true, spritePart_eq_true, spritePart_eq_true, spritePart_eq_true]
  by_cases hrow : row = y0 + h
  · subst hrow
    simp
  · have hlt : y0 ≤ row ∧ row < y0 + (h + 1) ↔ y0 ≤ row ∧ row < y0 + h := by omega
    have hnot : ¬(y0 + h ≤ row ∧ row < y0 + h + 1) := by omega
    simp only [← and_assoc, hlt, hnot, false_and, or_false]

/-- One more column on the right of a row (rule R132). -/
theorem spritePart_succ_width (rows : Nat → Byte) (y0 x0 w row col : Nat) :
    spritePart rows y0 x0 1 (w + 1) row col =
      (spritePart rows y0 x0 1 w row col || (spriteBit (rows 0) w && decide (row = y0 ∧ col = x0 + w))) := by
  rw [Bool.eq_iff_iff, Bool.or_eq_true, Bool.and_eq_true, decide_eq_true_eq, spritePart_eq_true,
    spritePart_eq_true, spriteBit]
  by_cases hcell : row = y0 ∧ col = x0 + w
  · obtain ⟨rfl, rfl⟩ := hcell
    simp
  · have hlt : y0 ≤ row ∧ row < y0 + 1 ∧ x0 ≤ col ∧ col < x0 + (w + 1) ↔
        y0 ≤ row ∧ row < y0 + 1 ∧ x0 ≤ col ∧ col < x0 + w := by omega
    simp only [hlt, hcell, and_false, or_false]

/-! ### Drawing -/

/-- A 1-bit of the sprite at a cell of the grid. -/
theorem xorsMask_drawPixel {row col : Nat} (hrow : row < 32) (hcol : col < 64) (s : State) :
    XorsMask (fun b a => decide (b = row ∧ a = col)) s (drawPixel row col s) := by
  obtain ⟨hpixel, hflag⟩ := drawPixel_visible s row col hrow hcol
  have hcollides : Collides (fun b a => decide (b = row ∧ a = col)) s ↔ s.pixel row col = true := by
    simp only [Collides, decide_eq_true_eq]
    constructor
    · rintro ⟨b, a, -, -, h, rfl, rfl⟩
      exact h
    · exact fun h => ⟨row, col, hrow, hcol, h, rfl, rfl⟩
  refine ⟨fun b a _ _ => ?_, fun h => ?_, fun h => ?_⟩
  · rw [hpixel]
    split <;> simp [*]
  · rw [hflag, if_pos (hcollides.1 h)]
  · rw [hflag, if_neg (mt hcollides.2 h)]

/-- One bit of a sprite row inside the grid's rows: a 0-bit draws nothing, and a 1-bit beyond column 63
is clipped. -/
theorem xorsMask_drawBit {row : Nat} (hrow : row < 32) (col : Nat) (bit : Bool) (s : State) :
    XorsMask (fun b a => bit && decide (b = row ∧ a = col)) s (if bit then drawPixel row col s else s) := by
  cases bit with
  | false => exact xorsMask_refl fun _ _ _ _ => rfl
  | true =>
    rw [if_pos rfl]
    by_cases hcol : col < 64
    · exact xorsMask_drawPixel hrow hcol s
    · rw [drawPixel_clipped s row col (Nat.le_of_not_lt hcol)]
      refine xorsMask_refl fun b a _ ha => ?_
      rw [Bool.true_and, decide_eq_false_iff_not]
      omega

/-- The left `w` columns of a sprite row inside the grid's rows. -/
theorem xorsMask_foldl_drawBit {y0 : Nat} (hy : y0 < 32) (x0 : Nat) (byte : Byte) (w : Nat) (s : State) :
    XorsMask (spritePart (fun _ => byte) y0 x0 1 w) s
      ((List.range w).foldl (fun t c => if spriteBit byte c then drawPixel y0 (x0 + c) t else t) s) := by
  induction w with
  | zero => exact xorsMask_refl fun row col _ _ => spritePart_eq_false (by omega)
  | succ w ih =>
    rw [List.range_succ, List.foldl_append, List.foldl_cons, List.foldl_nil]
    refine (ih.trans (xorsMask_drawBit hy (x0 + w) (spriteBit byte w) _) fun row col h => ?_).congr
      fun row col _ _ => spritePart_succ_width (fun _ => byte) y0 x0 w row col
    have ⟨hcell, _⟩ := spritePart_eq_true.1 h
    rw [decide_eq_false (by omega), Bool.and_false]

/-- One sprite row; below row 31 it is clipped. -/
theorem xorsMask_drawRow (y0 x0 : Nat) (byte : Byte) (s : State) :
    XorsMask (spritePart (fun _ => byte) y0 x0 1 8) s (drawRow y0 x0 byte s) := by
  rw [drawRow]
  split
  · exact xorsMask_foldl_drawBit (by omega) x0 byte 8 s
  · exact xorsMask_refl fun row col _ _ => spritePart_eq_false (by omega)

theorem drawRows_concat (y0 x0 : Nat) (rows : List Byte) (byte : Byte) (s : State) :
    drawRows y0 x0 (rows ++ [byte]) s = drawRow (y0 + rows.length) x0 byte (drawRows y0 x0 rows s) := by
  induction rows generalizing y0 s with
  | nil => rfl
  | cons row rows ih =>
    rw [List.cons_append, drawRows, ih, drawRows, List.length_cons, Nat.add_assoc, Nat.add_comm 1]

/-- The top `h` rows of a sprite. -/
theorem xorsMask_drawRows (rows : Nat → Byte) (y0 x0 h : Nat) (s : State) :
    XorsMask (spritePart rows y0 x0 h 8) s (drawRows y0 x0 ((List.range h).map rows) s) := by
  induction h with
  | zero => exact xorsMask_refl fun row col _ _ => spritePart_eq_false (by omega)
  | succ h ih =>
    rw [List.range_succ, List.map_append, List.map_singleton, drawRows_concat, List.length_map,
      List.length_range]
    refine (ih.trans (xorsMask_drawRow (y0 + h) x0 (rows h) _) fun row col hm => ?_).congr
      fun row col _ _ => spritePart_succ_height rows y0 x0 h 8 row col
    have ⟨hcell, _⟩ := spritePart_eq_true.1 hm
    exact spritePart_eq_false (by omega)

/-! ### The instruction -/

/-- DRW inside memory has a next state (rule R132). -/
theorem exists_effect_drw (x y : Reg) (h : n ≠ 0#4 → effAddr s n.toNat ≤ 4096) :
    ∃ t, Effect (.drw x y n) s t := ⟨_, h, rfl⟩

/-- DRW resets the flag and XORs the cells with its sprite (rule R132). -/
theorem Effect.drw_xorsMask (h : Effect (.drw x y n) s t) :
    XorsMask (spriteOn s x y n) (s.setFlag false) t := by
  obtain ⟨-, rfl⟩ := h
  exact xorsMask_drawRows (fun k => s.mem.read (effAddr s k)) (originY s y) (originX s x) n.toNat _

theorem Effect.drw_pixel (h : Effect (.drw x y n) s t) {row col : Nat} (hrow : row < 32) (hcol : col < 64) :
    t.pixel row col = (s.pixel row col ^^ spriteOn s x y n row col) :=
  h.drw_xorsMask.pixel row col hrow hcol

/-- The flag DRW leaves: 1 where it erased a lit cell. -/
theorem Effect.drw_flag_of_collides (h : Effect (.drw x y n) s t) (hc : Collides (spriteOn s x y n) s) :
    t.getV flagReg = 1#8 := h.drw_xorsMask.flag_of_collides hc

/-- The flag DRW leaves: 0 where it erased no cell. -/
theorem Effect.drw_flag_of_not_collides (h : Effect (.drw x y n) s t)
    (hc : ¬ Collides (spriteOn s x y n) s) : t.getV flagReg = 0#8 :=
  (h.drw_xorsMask.flag_of_not_collides hc).trans (getV_setFlag_flag s false)

theorem effAddr_rows_le_iff (hn : n ≠ 0#4) : effAddr s n.toNat ≤ 4096 ↔ s.index.toNat + n.toNat - 1 < 4096 := by
  have hpos : n.toNat ≠ 0 := BitVec.toNat_ne_iff_ne.2 hn
  rw [effAddr]
  omega

/-- A sprite row outside memory faults, visible or clipped (decision D14). -/
theorem exec_drw_outside (hn : n ≠ 0#4) (h : ¬ effAddr s n.toNat ≤ 4096) :
    exec (.drw x y n) s = .fault .addressOutOfRange := by
  rw [exec, execDrw, spriteRows, if_neg hn, memReadBytes_eq, ← effAddr_add, if_neg h, bindFault_error]

/-- The sprite depends on its origin and its bytes only. -/
theorem spriteOn_congr (hx : (u.getV x).toNat % 64 = (s.getV x).toNat % 64)
    (hy : (u.getV y).toNat % 32 = (s.getV y).toNat % 32) (hindex : u.index = s.index)
    (hmem : ∀ k < n.toNat, u.mem.read (effAddr s k) = s.mem.read (effAddr s k)) :
    spriteOn u x y n = spriteOn s x y n := by
  funext row col
  rw [Bool.eq_iff_iff, spriteOn_eq_spritePart, spriteOn_eq_spritePart, spritePart_eq_true, spritePart_eq_true,
    originX, originY, hx, hy]
  refine and_congr_right fun hcell => ?_
  rw [effAddr_eq_of_index_eq hindex, hmem _ (by omega)]
  rfl

end Sys2Proof.Machine

end

/-! ## The statements about random numbers and the display -/

section

namespace Sys2Proof.Machine

/-- Settles O50: DRW resets the flag and XORs the cells with its sprite, row by row and bit by bit. -/
theorem drawXorsTheClippedSprite : Obligations.DrawXorsTheClippedSprite := by
  refine fun x y n => ⟨decodeWith_encode (i := .drw x y n) rfl, fun s hin => ?_, fun s hn hout => ?_⟩
  · obtain ⟨t, ht⟩ := exists_effect_drw (s := s) x y fun hn => (effAddr_rows_le_iff hn).2 (hin.resolve_left hn)
    refine ⟨t, (exec_next_iff ..).2 ht, fun row col => ht.drw_pixel, ht.drw_flag_of_collides, fun hdark => ?_,
      fun r hr => ht.getV_eq rfl fun h => absurd h hr, ht.keepsBut.frame⟩
    refine ht.drw_flag_of_not_collides ?_
    rintro ⟨row, col, hrow, hcol, hlit, hon⟩
    exact absurd hon (by rw [hdark row col hrow hcol hlit]; decide)
  · exact exec_drw_outside hn (by rw [effAddr_rows_le_iff hn]; omega)

/-- Settles O51: both draws XOR with one sprite, and under it a cell is lit after the first draw exactly
when it was dark before. -/
theorem drawingTwiceErases : Obligations.DrawingTwiceErases := by
  intro x y n s t u ht hpixel hx hy hindex hmem
  have hfirst : Effect (.drw x y n) s t := (exec_next_iff ..).1 ht
  have ⟨hin, _⟩ := hfirst
  obtain ⟨w, hsecond⟩ := exists_effect_drw (s := u) x y fun hn => by
    rw [effAddr_eq_of_index_eq hindex]
    exact hin hn
  have hon : spriteOn u x y n = spriteOn s x y n := spriteOn_congr hx hy hindex hmem
  have hcollides : Collides (spriteOn u x y n) u ↔ ∃ row col : Nat, row < 32 ∧ col < 64 ∧
      spriteOn s x y n row col = true ∧ s.pixel row col = false := by
    refine exists₂_congr fun row col => and_congr_right fun hrow => and_congr_right fun hcol => ?_
    rw [hon, hpixel, hfirst.drw_pixel hrow hcol, and_comm]
    refine and_congr_right fun h => ?_
    rw [h, Bool.xor_true, Bool.not_eq_true']
  refine ⟨w, (exec_next_iff ..).2 hsecond, fun row col => ?_, ?_⟩
  · by_cases hgrid : row < 32 ∧ col < 64
    · rw [hsecond.drw_pixel hgrid.1 hgrid.2, hon, hpixel, hfirst.drw_pixel hgrid.1 hgrid.2, Bool.xor_assoc,
        Bool.xor_self, Bool.xor_false]
    · rw [pixel_outside hgrid, pixel_outside hgrid]
  · rw [← hcollides]
    by_cases hc : Collides (spriteOn u x y n) u
    · have hflag := hsecond.drw_flag_of_collides hc
      exact ⟨.inr hflag, iff_of_true hflag hc⟩
    · have hflag := hsecond.drw_flag_of_not_collides hc
      exact ⟨.inl hflag, iff_of_false (fun h => absurd (hflag.symm.trans h) (by decide)) hc⟩

/-- Settles O48, for whatever byte the draw is. -/
theorem randomMasksTheDraw : Obligations.RandomMasksTheDraw := by
  refine fun x nn => ⟨decodeWith_encode (i := .rnd x nn) rfl, fun s => ?_⟩
  obtain ⟨t, ht⟩ : ∃ t, Effect (.rnd x nn) s t := ⟨_, rfl⟩
  have hval : t.getV x = Config.rand s.draws &&& nn := by
    rw [show t = _ from ht, getV_advanceDraws, getV_setV, if_pos rfl]
  refine ⟨t, (exec_next_iff ..).2 ht, hval, fun hnn => ?_, fun k _ hk => ?_, ?_, fun r hr => ?_,
    ht.keepsBut.frame⟩
  · rw [hval, hnn, BitVec.and_zero]
  · rw [hval, BitVec.getLsbD_and, hk, Bool.and_false]
  · rw [show t = _ from ht, State.advanceDraws_draws, State.setV_draws]
  · exact ht.getV_eq (decide_eq_false hr) fun _ => rfl

/-- Settles O49: all the cells are replaced. -/
theorem clearScreenClearsEveryCell : Obligations.ClearScreenClearsEveryCell :=
  ⟨decodeWith_encode (i := .cls) rfl, fun s =>
    ⟨s.clearFb, rfl, pixel_clearFb_eq s, (keepsBut_fb s _).frame⟩⟩

end Sys2Proof.Machine

end

/-! ## Decoding without `EXT_OPS` (rule R140) -/

section

namespace Sys2Proof

open Laws.EncodeFields (fieldsOf)

variable {w : Word}

/-- `EXT_OPS` makes a difference to the words of the seven instructions only. -/
theorem recognisedWith_false_eq_true (hF : ¬(opOf w = 0xF#4 ∧ nnOf w ∈ extSelectorsF))
    (hE : ¬(opOf w = 0xE#4 ∧ nnOf w ∈ selectorsE)) : recognisedWith false w = recognisedWith true w := by
  rw [Bool.eq_iff_iff, recognisedWith_iff, recognisedWith_iff]
  simp only [Bool.false_eq_true, false_and, true_and, and_false, or_false, and_or_left, hF, hE]

/-- Every instruction of the machine without `EXT_OPS` is one of the machine with it, `NOP*` of a word
that neither recognises included. -/
theorem wellFormedWith_true_of_false {i : Instr} (h : recognisedWith false w = recognisedWith true w)
    (hw : fieldsOf w i) (hi : i.wellFormedWith false = true) : i.wellFormedWith true = true := by
  cases i with
  | nop _ =>
    obtain rfl : w = _ := hw
    rwa [Instr.wellFormedWith, ← h]
  | _ => rfl

theorem decodeWith_false_eq_true (hF : ¬(opOf w = 0xF#4 ∧ nnOf w ∈ extSelectorsF))
    (hE : ¬(opOf w = 0xE#4 ∧ nnOf w ∈ selectorsE)) : decodeWith false w = decodeWith true w := by
  obtain ⟨hw, hi⟩ := decodeWith_fields_wellFormed false w
  exact (decodeWith_of_fields hw
    (wellFormedWith_true_of_false (recognisedWith_false_eq_true hF hE) hw hi)).symm

end Sys2Proof

end

/-! ## Keypad, timers and font (rules R140 to R148) -/

section

namespace Sys2Proof.Machine

variable {s t : State} {i : Instr} {x : Reg}

/-! ### A number that names no key (rule R148) -/

theorem keyOperand_of_no_key (h : 16 ≤ (s.getV x).toNat) : keyOperand s x = .error .addressOutOfRange := by
  rw [keyOperand_eq, if_neg (by omega)]

theorem exec_skp_of_no_key (h : 16 ≤ (s.getV x).toNat) : exec (.skp x) s = .fault .addressOutOfRange := by
  rw [exec, execSkp, keyOperand_of_no_key h, bindFault_error]

theorem exec_sknp_of_no_key (h : 16 ≤ (s.getV x).toNat) : exec (.sknp x) s = .fault .addressOutOfRange := by
  rw [exec, execSknp, keyOperand_of_no_key h, bindFault_error]

/-! ### Updates that commute with register loads and draws -/

/-- The update leaves registers and cells alone and does not depend on them, so it can be made before
or after the writes of a register load or of a draw. -/
structure ApartFromRegsAndFb (f : State → State) : Prop where
  setV : ∀ (s : State) (r : Reg) (b : Byte), f (s.setV r b) = (f s).setV r b
  togglePixel : ∀ (s : State) (y x : Nat), f (s.togglePixel y x) = (f s).togglePixel y x
  pixel : ∀ (s : State) (y x : Nat), (f s).pixel y x = s.pixel y x

section

variable {f : State → State} (hf : ApartFromRegsAndFb f)

include hf

theorem ApartFromRegsAndFb.setRegsFrom_eq (k : Nat) (bs : List Byte) (s : State) :
    setRegsFrom (f s) k bs = f (setRegsFrom s k bs) := by
  induction bs generalizing s k with
  | nil => rfl
  | cons b bs ih => rw [setRegsFrom, ← hf.setV, ih, setRegsFrom]

theorem ApartFromRegsAndFb.drawPixel_eq (y x : Nat) (s : State) :
    drawPixel y x (f s) = f (drawPixel y x s) := by
  have hflag : (f s).setFlag true = f (s.setFlag true) := (hf.setV ..).symm
  rw [drawPixel, drawPixel, hf.pixel, hflag, ← apply_ite f, ← hf.togglePixel, ← apply_ite f]

theorem ApartFromRegsAndFb.drawRow_eq (y x0 : Nat) (row : Byte) (s : State) :
    drawRow y x0 row (f s) = f (drawRow y x0 row s) := by
  rw [drawRow, drawRow, apply_ite f]
  congr 1
  refine List.foldl_hom f fun u c => ?_
  rw [hf.drawPixel_eq, apply_ite f]

theorem ApartFromRegsAndFb.drawRows_eq (y x0 : Nat) (rows : List Byte) (s : State) :
    drawRows y x0 rows (f s) = f (drawRows y x0 rows s) := by
  induction rows generalizing s y with
  | nil => rfl
  | cons row rows ih => rw [drawRows, hf.drawRow_eq, ih, drawRows]

end

/-! ### Without `EXT_OPS` nothing touches the keypad or a timer (rule R140) -/

/-- The state with other keys and other timers. -/
def State.withInputs (key : Vector Bool 16) (dt st : Byte) (s : State) : State :=
  { s with key := key, dt := dt, st := st }

variable (key : Vector Bool 16) (dt st : Byte)

theorem apartFromRegsAndFb_withInputs : ApartFromRegsAndFb (State.withInputs key dt st) where
  setV _ _ _ := rfl
  togglePixel s y x := by
    unfold State.togglePixel
    split <;> rfl
  pixel _ _ _ := rfl

theorem skipIf_withInputs (c : Bool) (s : State) :
    skipIf c (s.withInputs key dt st) = (skipIf c s).withInputs key dt st := by
  rw [skipIf_eq, skipIf_eq]
  rfl

/-- An instruction that exists without `EXT_OPS` has the same effect whatever the keys and timers. -/
theorem Effect.withInputs (h : Effect i s t) (hi : i.wellFormedWith false = true) :
    Effect i (s.withInputs key dt st) (t.withInputs key dt st) := by
  have hapart := apartFromRegsAndFb_withInputs key dt st
  cases i with
  | skp _ | sknp _ | ldVxDt _ | ldVxK _ | ldDtVx _ | ldStVx _ | ldF _ => cases hi
  | ret | call _ => obtain ⟨hsp, rfl⟩ := h; exact ⟨hsp, rfl⟩
  | seImm _ _ | sneImm _ _ | seReg _ _ | sneReg _ _ =>
    obtain rfl := h; exact (skipIf_withInputs ..).symm
  | drw _ _ _ => obtain ⟨ha, rfl⟩ := h; exact ⟨ha, (hapart.drawRows_eq _ _ _ (s.setFlag false)).symm⟩
  | ldB _ | ldMemVx _ => obtain ⟨ha, rfl⟩ := h; exact ⟨ha, rfl⟩
  | ldVxMem _ => obtain ⟨ha, rfl⟩ := h; exact ⟨ha, (hapart.setRegsFrom_eq ..).symm⟩
  | _ => obtain rfl := h; rfl

/-- An instruction that exists without `EXT_OPS` writes no timer and no `kwait`. -/
theorem not_mem_writtenParts_of_no_ext {p : Part} (hi : i.wellFormedWith false = true)
    (hp : p ∈ [.dt, .st, .kwait]) : p ∉ writtenParts i := by
  cases i with
  | ldVxK _ | ldDtVx _ | ldStVx _ => cases hi
  | _ =>
    simp only [writtenParts]
    revert p
    decide

/-! ### A cycle with either `EXT_OPS` (rules R80, R140) -/

/-- `cycleWith_next` with its converse. -/
theorem cycleWith_next_iff {ext : Bool} : cycleWith ext s = .next t ↔
    s.fault = none ∧ s.pc.toNat ≤ 4094 ∧
      Effect (decodeWith ext (wordAt s s.pc.toNat)) s.enterExecute t := by
  constructor
  · intro h
    obtain ⟨hf, hpc, he⟩ := cycleWith_next h
    exact ⟨hf, hpc, (exec_next_iff ..).1 he⟩
  · rintro ⟨hf, hpc, he⟩
    rw [cycleWith, hf]
    simp only [fetch_ok hpc, bindFault_ok]
    exact (exec_next_iff ..).2 he

end Sys2Proof.Machine

end

/-! ## The statements about keypad, timers and font -/

section

namespace Sys2Proof.Machine

/-- Settles O12: the decoder as `secondarySelectorsDecode` and `decodeWith_false_eq_true` give it; what it
decodes to then writes no timer and no `kwait`, and commutes with other keys and timers. -/
theorem withoutExtensionOpsTimersAndKeysAreDead : Obligations.WithoutExtensionOpsTimersAndKeysAreDead := by
  obtain ⟨-, -, -, -, -, -, hE, -, -, hF, -⟩ := secondarySelectorsDecode
  refine ⟨hF, fun x nn _ => hE x nn, fun w => decodeWith_false_eq_true, fun s t h => ?_,
    fun s t k b d e h => ?_⟩
  · obtain ⟨-, -, he⟩ := cycleWith_next_iff.1 h
    obtain ⟨-, hi⟩ := decodeWith_fields_wellFormed false (wordAt s s.pc.toNat)
    have hdead (p : Part) (hp : p ∈ [.dt, .st, .kwait]) : Keeps p s.enterExecute t :=
      he.keepsBut p (not_mem_writtenParts_of_no_ext hi hp)
    exact ⟨hdead .dt (by decide), hdead .st (by decide), hdead .kwait (by decide)⟩
  · obtain ⟨hf, hpc, he⟩ := cycleWith_next_iff.1 h
    obtain ⟨-, hi⟩ := decodeWith_fields_wellFormed false (wordAt s s.pc.toNat)
    have hkey : t.key = s.key := he.keepsBut .key (not_mem_writtenParts (by decide))
    have hset (u : State) : setKey k b ((u.setDt d).setSt e) = u.withInputs (u.key.set k b) d e := rfl
    rw [hset, hset, hkey, cycleWith_next_iff]
    exact ⟨hf, hpc, he.withInputs _ d e hi⟩

/-- Settles O41, for whatever font base. -/
theorem fontIndexIsBasePlusFiveTimesVx : Obligations.FontIndexIsBasePlusFiveTimesVx := by
  refine fun x => ⟨decodeWith_encode (i := .ldF x) rfl,
    fun s => ⟨_, rfl, ?_, (keepsBut_setIndex s _).frame⟩⟩
  rw [State.setIndex_index, BitVec.toNat_add, BitVec.toNat_mul, toNat_zextAddr, toNat_zextByte,
    Nat.add_mod_mod, BitVec.toNat_ofNat]

/-- Settles O52: each is `skipIf` of the key where VX names one, and raises where it names none. -/
theorem keySkipsTestTheKeyVxNames : Obligations.KeySkipsTestTheKeyVxNames := by
  refine fun x => ⟨⟨decodeWith_encode (i := .skp x) rfl, decodeWith_encode (i := .sknp x) rfl⟩,
    fun s => ⟨fun hkey => ⟨?_, ?_⟩,
      fun hnone => ⟨exec_skp_of_no_key hnone, exec_sknp_of_no_key hnone⟩⟩⟩
  · exact exec_of_skipIf ((exec_next_iff ..).2 ⟨hkey, rfl⟩) Iff.rfl
  · exact exec_of_skipIf ((exec_next_iff ..).2 ⟨hkey, rfl⟩) (Iff.of_eq (Bool.not_eq_true' _))

/-- Settles O53, with a least key down and with none. -/
theorem waitForKeyTakesTheLeastKey : Obligations.WaitForKeyTakesTheLeastKey := by
  refine fun x => ⟨decodeWith_encode (i := .ldVxK x) rfl, fun s =>
    ⟨fun k hk hdown hleast => ?_, fun hup => ?_⟩⟩
  · have hkey : leastKey s = some k := (leastKey_some s k).2 ⟨hk, hdown, hleast⟩
    refine ⟨_, (exec_next_iff ..).2 (.inl ⟨k, hkey, rfl⟩), ?_, rfl, fun r hr => ?_,
      ((keepsBut_setV s x _).append (keepsBut_setKwait _ _)).frame⟩
    · rw [getV_setKwait, getV_setV, if_pos rfl, BitVec.toNat_ofNat, Nat.mod_eq_of_lt (by omega)]
    · rw [getV_setKwait, getV_setV, if_neg hr]
  · have hnone : leastKey s = none := (leastKey_none s).2 hup
    exact ⟨_, (exec_next_iff ..).2 (.inr ⟨hnone, rfl⟩), rfl, rfl,
      ((keepsBut_setPc s _).append (keepsBut_setKwait _ _)).frame⟩

/-- Settles O54: one register or timer write each. -/
theorem timerTransfers : Obligations.TimerTransfers := by
  refine fun x => ⟨⟨decodeWith_encode (i := .ldVxDt x) rfl, decodeWith_encode (i := .ldDtVx x) rfl,
    decodeWith_encode (i := .ldStVx x) rfl⟩, fun s => ⟨?_, ?_, ?_⟩⟩
  · exact exec_of_setV (p := (· = s.dt)) rfl rfl
  · exact ⟨_, rfl, rfl, (keepsBut_setDt s _).frame⟩
  · exact ⟨_, rfl, rfl, bne_iff_ne, (keepsBut_setSt s _).frame⟩

end Sys2Proof.Machine

end

/-! ## The table of faults (rule R150) -/

section

namespace Sys2Proof.Machine

variable {s : State} {i : Instr} {f g : Fault}

/-- An instruction whose row has one condition: it raises the row's fault under the condition, and has
its effect otherwise. -/
theorem exec_fault_iff_of_row {c : Prop} [Decidable c] (hrow : faultOf i s = if c then some g else none)
    (hraise : c → exec i s = .fault g) (heffect : ¬c → ∃ t, Effect i s t) :
    exec i s = .fault f ↔ faultOf i s = some f := by
  by_cases hc : c
  · rw [hraise hc, hrow, if_pos hc, Option.some_inj, Host.Outcome.fault.injEq]
  · obtain ⟨t, ht⟩ := heffect hc
    rw [(exec_next_iff i s t).2 ht, hrow, if_neg hc]
    exact ⟨nofun, nofun⟩

/-- The row of DRW has the condition under which the last sprite row lies outside memory. -/
theorem drw_row_condition_iff {n : Nibble} :
    1 ≤ n.toNat ∧ 4096 ≤ s.index.toNat + n.toNat - 1 ↔ n ≠ 0#4 ∧ ¬ effAddr s n.toNat ≤ 4096 := by
  rw [← BitVec.toNat_ne_iff_ne, BitVec.toNat_ofNat, effAddr]
  omega

/-- The execute stage raises what the table says, and nothing else. -/
theorem exec_fault_iff : exec i s = .fault f ↔ faultOf i s = some f := by
  cases i with
  | ret => exact exec_fault_iff_of_row rfl exec_ret_of_empty fun h => exists_effect_ret (Nat.pos_of_ne_zero h)
  | call n => exact exec_fault_iff_of_row rfl (exec_call_of_full n) fun h => exists_effect_call n (by omega)
  | drw x y n =>
    refine exec_fault_iff_of_row rfl (fun h => ?_) fun h => ?_
    · obtain ⟨hn, hout⟩ := drw_row_condition_iff.1 h
      exact exec_drw_outside hn hout
    · exact exists_effect_drw x y fun hn => not_not.1 fun hout => h (drw_row_condition_iff.2 ⟨hn, hout⟩)
  | ldB x => exact exec_fault_iff_of_row rfl exec_ldB_outside fun h => ⟨_, Nat.lt_of_not_le h, rfl⟩
  | ldMemVx x => exact exec_fault_iff_of_row rfl exec_ldMemVx_outside fun h => ⟨_, Nat.lt_of_not_le h, rfl⟩
  | ldVxMem x => exact exec_fault_iff_of_row rfl exec_ldVxMem_outside fun h => ⟨_, Nat.lt_of_not_le h, rfl⟩
  | skp x => exact exec_fault_iff_of_row rfl exec_skp_of_no_key fun h => ⟨_, Nat.lt_of_not_le h, rfl⟩
  | sknp x => exact exec_fault_iff_of_row rfl exec_sknp_of_no_key fun h => ⟨_, Nat.lt_of_not_le h, rfl⟩
  | ldVxK x =>
    rw [exec, execLdVxK]
    split <;> exact ⟨nofun, nofun⟩
  | _ => exact ⟨nofun, nofun⟩

/-- The advance changes nothing the table depends on. -/
theorem faultOf_enterExecute (i : Instr) (s : State) : faultOf i s.enterExecute = faultOf i s := by
  cases i <;> rfl

/-- Settles O16: `exec_fault_iff`, and before it the fetch of a cycle. -/
theorem faultsAreExactlyTheTable : Obligations.FaultsAreExactlyTheTable := by
  refine ⟨fun i s f => exec_fault_iff, fun s f hf => ?_⟩
  split
  · next hpc => rw [step_of_fetch_error hf (fetch_error hpc), Host.Outcome.fault.injEq, eq_comm]
  · next hpc =>
    rw [step_of_fetch hf (fetch_ok (by omega)), exec_fault_iff, faultOf_enterExecute, nextInstr]

end Sys2Proof.Machine

end

/-! ## What an execute-stage fault leaves (rule R155) -/

section

namespace Sys2Proof.Machine

variable {s : State} {i : Instr} {f : Fault}

theorem keepsBut_latchFault (s : State) (f : Fault) : KeepsBut [.fault] s (s.latchFault f) := by
  intro p hp
  cases p <;> simp [Keeps] at hp ⊢

/-- After a successful fetch the faulted state is the advanced one with free values in the places the
instruction could have written and in `kwait`, and the fault latched. -/
theorem faultedState_of_fetch_ok {w : Word} (h : fetch s = .ok w) (f : Fault) :
    faultedState f s = (((leaveBehind (decode w) s.enterExecute).setKwait
      (Config.leftoverBit s.draws)).advanceDraws 16).latchFault f := by
  rw [faultedState, h]

/-- Beyond the free values of `leaveBehind` only `kwait`, the latch and the count of draws differ from
the advanced state. -/
theorem keepsBut_faultedState (hpc : s.pc.toNat ≤ 4094) (f : Fault) :
    KeepsBut [.kwait, .draws, .fault] (leaveBehind (nextInstr s) s.enterExecute) (faultedState f s) := by
  rw [faultedState_of_fetch_ok (fetch_ok hpc), ← nextInstr]
  exact (keepsBut_setKwait _ _).append ((keepsBut_advanceDraws _ _).append (keepsBut_latchFault _ _))

/-- The free registers: `VF` for DRW, `V0` to `VX` for LD VX,[I]. -/
theorem leaveBehind_getV {r : Reg} (h : (leaveBehind i s).getV r ≠ s.getV r) :
    (∃ x y n, i = .drw x y n ∧ r = 0xF#4) ∨ ∃ x, i = .ldVxMem x ∧ r.toNat ≤ x.toNat := by
  cases i with
  | drw x y n =>
    refine .inl ⟨x, y, n, rfl, of_not_not fun hr => h ?_⟩
    exact (getV_setV ..).trans (if_neg hr)
  | ldVxMem x =>
    refine .inr ⟨x, rfl, of_not_not fun hr => h ?_⟩
    have hx := x.isLt
    rw [leaveBehind, regCount, getV_setRegsFrom _ _ _ (by simp; omega), if_neg (by simp; omega)]
  | _ => exact absurd rfl h

/-- The free bytes of a store lie where it stores, and inside memory. -/
theorem scrambleMem_read {a n c : Nat} (hwf : s.mem.wf = true)
    (h : (scrambleMem a n s).mem.read c ≠ s.mem.read c) : a ≤ c ∧ c < 4096 ∧ c < a + n := by
  have hinside : a ≤ 4096 := by
    by_contra ha
    have hnone : min n (Config.memSize - a) = 0 := by rw [Config.memSize]; omega
    exact h (by rw [scrambleMem, hnone]; rfl)
  rw [scrambleMem, State.setMem_mem, Memory.read_writeList hwf (by simp [Config.memSize]; omega)] at h
  obtain ⟨hc, -⟩ := ite_ne_right_iff.1 h
  rw [List.length_map, List.length_range, Config.memSize] at hc
  omega

/-- The free bytes of memory: the three of LD B, those of `V0` to `VX` for LD [I]. -/
theorem leaveBehind_read {a : Nat} (hwf : s.mem.wf = true)
    (h : (leaveBehind i s).mem.read a ≠ s.mem.read a) :
    effAddr s 0 ≤ a ∧ a < 4096 ∧ ((∃ x, i = .ldB x ∧ a ≤ effAddr s 2) ∨
      ∃ x, i = .ldMemVx x ∧ a ≤ effAddr s x.toNat) := by
  cases i with
  | ldB x =>
    obtain ⟨hlo, hmem, hhi⟩ := scrambleMem_read hwf h
    exact ⟨hlo, hmem, .inl ⟨x, rfl, by rw [effAddr_add]; omega⟩⟩
  | ldMemVx x =>
    obtain ⟨hlo, hmem, hhi⟩ := scrambleMem_read hwf h
    rw [regCount] at hhi
    exact ⟨hlo, hmem, .inr ⟨x, rfl, by rw [effAddr_add]; omega⟩⟩
  | ldVxMem x =>
    have hkeep : (leaveBehind (.ldVxMem x) s).mem = s.mem := keepsBut_setRegsFrom s 0 _ .mem (by decide)
    exact absurd (by rw [hkeep]) h
  | _ => exact absurd rfl h

/-- Settles O17: the faulted state is the advanced one but for the latch, `kwait` and what
`leaveBehind` frees. -/
theorem executeFaultLeavesTheRestAlone : Obligations.ExecuteFaultLeavesTheRestAlone := by
  intro s f hwf hf hpc h
  obtain ⟨hlatch, hstarted⟩ := faultedState_latch_started f s
  have hleft := keepsBut_leaveBehind (nextInstr s) s.enterExecute
  have hrest := keepsBut_faultedState hpc f
  have hadv : (faultedState f s).pc = s.enterExecute.pc :=
    (hleft .pc (by decide)).trans (hrest .pc (by decide))
  refine ⟨faultedState f s, invokeStep_of_fault hf h, hlatch, hstarted, ?_,
    (((keepsBut_enterExecute s).append (hleft.append hrest)).mono (by decide)).frame,
    fun r hr => ?_, fun a ha => ?_⟩
  · rw [hadv, toNat_pc_enterExecute hpc]
  · rw [hrest.frame .regs (by decide) r] at hr
    exact leaveBehind_getV hr
  · rw [hrest.frame .mem (by decide) a] at ha
    exact leaveBehind_read (s := s.enterExecute) hwf ha

end Sys2Proof.Machine

end

/-! ## The host's operations (rules R156, R163 to R168, R180) -/

section

namespace Sys2Proof.Machine

variable {s : State} {op : HostOp} {f : Fault}

theorem keepsBut_tick (s : State) : KeepsBut [.dt, .st] s (tick s) := by
  intro p hp
  cases p <;> simp [Keeps] at hp ⊢

theorem keepsBut_setKey (s : State) (k : Fin 16) (b : Bool) : KeepsBut [.key] s (setKey k b s) := by
  intro p hp
  cases p <;> simp [Keeps] at hp ⊢

theorem keepsBut_loadImage (s : State) (image : List Byte) : KeepsBut [.mem] s (loadImage image s).2 := by
  unfold loadImage
  split
  · exact keepsBut_refl _ _
  · split
    · exact keepsBut_refl _ _
    · exact keepsBut_setMem _ _

/-- Reset sets every part but the model's own count of draws. -/
theorem keepsBut_resetCore (s : State) : KeepsBut [.draws] State.reset (resetCore s) := by
  intro p hp
  cases p with
  | draws => exact absurd (List.mem_singleton.2 rfl) hp
  | _ => rfl

/-- The host's operations between cycles write memory, timers and keys only. -/
theorem hostStep_keepsBut (hreset : op ≠ .reset) (hstep : op ≠ .step) (s : State) :
    KeepsBut [.mem, .dt, .st, .key] s (hostStep op s).2 := by
  cases op with
  | reset => exact absurd rfl hreset
  | step => exact absurd rfl hstep
  | load image => exact (keepsBut_loadImage s image).mono (by simp)
  | tick => exact (keepsBut_tick s).mono (by simp)
  | setKey k b => exact (keepsBut_setKey s k b).mono (by simp)

/-- No operation but `reset` changes a latched fault (decision D9). -/
theorem hostStep_keeps_latch (hreset : op ≠ .reset) (hf : s.fault = some f) :
    (hostStep op s).2.fault = some f := by
  by_cases hstep : op = .step
  · rw [hstep, hostStep, invokeStep_of_latched hf, hf]
  · have hkeep : (hostStep op s).2.fault = s.fault := hostStep_keepsBut hreset hstep s .fault (by decide)
    rw [hkeep, hf]

theorem invokeStep_keeps_started (hstarted : s.started = true) : (invokeStep s).2.started = true := by
  cases hf : s.fault with
  | some f => rw [invokeStep_of_latched hf, hstarted]
  | none =>
    cases h : step s with
    | next t =>
      obtain ⟨-, -, -, ht, -⟩ := cycleNeverTicksNorWritesKeys s t h
      rw [invokeStep_of_next h, ht]
    | fault f =>
      obtain ⟨-, ht⟩ := faultedState_latch_started f s
      rw [invokeStep_of_fault hf h, ht]
    | refused r => exact absurd h (step_ne_refused s r)

/-- No operation but `reset` clears `started` (rule R180). -/
theorem hostStep_keeps_started (hreset : op ≠ .reset) (hstarted : s.started = true) :
    (hostStep op s).2.started = true := by
  by_cases hstep : op = .step
  · rw [hstep]
    exact invokeStep_keeps_started hstarted
  · have hkeep : (hostStep op s).2.started = s.started :=
      hostStep_keepsBut hreset hstep s .started (by decide)
    rw [hkeep, hstarted]

/-! ### Ticks (rule R163) -/

/-- Counting down by one and staying at 0 (decision D15). -/
theorem toNat_countDown (b : Byte) : (if b = 0#8 then 0#8 else b - 1#8).toNat = b.toNat - 1 := by
  split
  · next hb => rw [hb]; rfl
  · next hb =>
    have hpos : b.toNat ≠ 0 := BitVec.toNat_ne_iff_ne.2 hb
    have hle : 1#8 ≤ b := BitVec.le_def.2 (Nat.one_le_iff_ne_zero.2 hpos)
    rw [BitVec.toNat_sub_of_le hle]
    rfl

theorem runHost_ticks (n : Nat) (s : State) :
    (runHost (List.replicate n .tick) s).dt.toNat = s.dt.toNat - n ∧
      (runHost (List.replicate n .tick) s).st.toNat = s.st.toNat - n := by
  induction n generalizing s with
  | zero => exact ⟨rfl, rfl⟩
  | succ n ih =>
    obtain ⟨hdt, hst⟩ := ih (tick s)
    rw [tick_dt, toNat_countDown] at hdt
    rw [tick_st, toNat_countDown] at hst
    rw [List.replicate_succ, runHost, hostStep, hdt, hst]
    omega

/-! ### The keypad-wait status (rule R168) -/

theorem kwait_mem_writtenParts {i : Instr} : .kwait ∈ writtenParts i ↔ ∃ x, i = .ldVxK x := by
  cases i <;> simp [writtenParts]

/-- There is no key at or above 16, so a wait finds none exactly when none is down (rule R22). -/
theorem leastKey_none_iff_all : leastKey s = none ↔ ∀ k : Nat, s.keyDown k = false := by
  rw [leastKey_none]
  refine ⟨fun h k => ?_, fun h k _ => h k⟩
  by_cases hk : k < 16
  · exact h k hk
  · exact dif_neg hk

/-- LD VX,K leaves `kwait` 1 exactly when it found no key. -/
theorem Effect.ldVxK_kwait {x : Reg} {t : State} (h : Effect (.ldVxK x) s t) :
    t.kwait = true ↔ ∀ k : Nat, s.keyDown k = false := by
  rw [← leastKey_none_iff_all]
  obtain ⟨k, hk, rfl⟩ | ⟨hk, rfl⟩ := h <;> simp [hk]

/-! ### The statements -/

/-- Settles O25: the advance clears `kwait`, and of the instructions only LD VX,K writes it. -/
theorem keypadWaitAfterACycle : Obligations.KeypadWaitAfterACycle := by
  refine ⟨fun s t h => ?_, fun s => rfl,
    fun op s hreset hstep => hostStep_keepsBut hreset hstep s .kwait (by decide)⟩
  obtain ⟨-, -, he⟩ := step_next h
  by_cases hi : .kwait ∈ writtenParts (nextInstr s)
  · obtain ⟨x, hx⟩ := kwait_mem_writtenParts.1 hi
    rw [hx] at he
    exact he.ldVxK_kwait.trans (and_iff_right ⟨x, hx⟩).symm
  · have hkeep : t.kwait = s.enterExecute.kwait := he.keepsBut .kwait hi
    rw [hkeep]
    exact ⟨nofun, fun ⟨hx, _⟩ => absurd (kwait_mem_writtenParts.2 hx) hi⟩

/-- Settles O56: each timer counts down by `toNat_countDown`, tick after tick. -/
theorem ticksCountDownToZero : Obligations.TicksCountDownToZero :=
  ⟨fun s => ⟨tick s, rfl, toNat_countDown s.dt, toNat_countDown s.st, (keepsBut_tick s).frame⟩,
    fun s n => runHost_ticks n s⟩

/-- Settles O15: a latched fault is answered again, and of the host's operations only `reset` writes
the latch. -/
theorem onlyResetClearsAFault : Obligations.OnlyResetClearsAFault := fun _ _ hf =>
  ⟨invokeStep_of_latched hf, fun _ hreset => hostStep_keeps_latch hreset hf, rfl⟩

/-- Settles O58: one key written, every part reset, and `reset` alone clears the latch and `started`. -/
theorem setKeyAndReset : Obligations.SetKeyAndReset :=
  ⟨fun k b s => ⟨setKey k b s, rfl, keyDown_setKey s k b, (keepsBut_setKey s k b).frame⟩,
    fun s => ⟨resetCore s, rfl, (keepsBut_resetCore s).frame⟩,
    fun _ _ hreset => ⟨hostStep_keeps_started hreset, fun _ => hostStep_keeps_latch hreset⟩⟩

end Sys2Proof.Machine

end

/-! ## Nested calls (rule R152) -/

section

namespace Sys2Proof.Machine

variable {s t : State}

theorem push_eq_overflow_iff (s : State) (w : Word) : push s w = .error .stackOverflow ↔ s.sp.val = 16 := by
  refine ⟨fun h => ?_, push_full s w⟩
  by_contra hne
  rw [push_ok s w (by omega)] at h
  cases h

/-- An instruction that has its effect hands over to the rest of the list. -/
theorem execAll_cons_of_effect {i : Instr} (h : Effect i s t) (is : List Instr) :
    execAll (i :: is) s = execAll is t := by
  rw [execAll, (exec_next_iff ..).2 h]

/-- Calls for which the stack has room succeed, and each takes one entry. -/
theorem execAll_calls_of_room (targets : List Addr) (h : s.sp.val + targets.length ≤ 16) :
    ∃ t : State, execAll (targets.map .call) s = .next t ∧ t.sp.val = s.sp.val + targets.length := by
  induction targets generalizing s with
  | nil => exact ⟨s, rfl, rfl⟩
  | cons n targets ih =>
    rw [List.length_cons] at h ⊢
    obtain ⟨u, hu⟩ := exists_effect_call n (show s.sp.val < 16 by omega)
    obtain ⟨-, hsp, -⟩ := hu.call_stack
    obtain ⟨t, ht, htsp⟩ := ih (s := u) (by omega)
    exact ⟨t, (execAll_cons_of_effect hu _).trans ht, by omega⟩

/-- One call more than the stack has room for, and the list overflows. -/
theorem execAll_calls_of_no_room (targets : List Addr) (h : 16 < s.sp.val + targets.length) :
    execAll (targets.map .call) s = .fault .stackOverflow := by
  induction targets generalizing s with
  | nil => exact absurd h (Nat.not_lt.2 (Nat.le_of_lt_succ s.sp.isLt))
  | cons n targets ih =>
    rw [List.length_cons] at h
    rw [List.map_cons]
    by_cases hfull : s.sp.val = 16
    · rw [execAll, exec_call_of_full n hfull]
    · obtain ⟨u, hu⟩ := exists_effect_call n (show s.sp.val < 16 by omega)
      obtain ⟨-, hsp, -⟩ := hu.call_stack
      rw [execAll_cons_of_effect hu]
      exact ih (by omega)

/-- Settles O33, by induction on the list of calls from any depth of the stack. -/
theorem sixteenNestedCallsThenOverflow : Obligations.SixteenNestedCallsThenOverflow := by
  refine ⟨push_eq_overflow_iff, fun s targets hempty => ⟨fun hlen => ?_, fun hlen => ?_⟩⟩
  · obtain ⟨t, ht, hsp⟩ := execAll_calls_of_room (s := s) targets (by omega)
    exact ⟨t, ht, by omega⟩
  · exact execAll_calls_of_no_room targets (by omega)

end Sys2Proof.Machine

end

/-! ## When a step succeeds (rule R192) -/

section

namespace Sys2Proof.Machine

variable {s : State} {i : Instr}

/-- Where the table of faults has no row for an instruction, and only there, it has its effect. -/
theorem exists_effect_iff : (∃ t, Effect i s t) ↔ faultOf i s = none := by
  cases h : exec i s with
  | next t =>
    refine iff_of_true ⟨t, (exec_next_iff i s t).1 h⟩ (Option.eq_none_iff_forall_ne_some.2 fun f hf => ?_)
    rw [exec_fault_iff.2 hf] at h
    cases h
  | fault f =>
    refine iff_of_false (fun ⟨t, ht⟩ => ?_) (by rw [exec_fault_iff.1 h]; exact nofun)
    rw [(exec_next_iff i s t).2 ht] at h
    cases h
  | refused r => exact absurd h (exec_ne_refused i s r)

/-- Settles O18: `cycleWith_next_iff` leaves the effect of the instruction, which exists exactly where the
table has no fault for it. -/
theorem safeStepIsExactlyASuccessfulStep : Obligations.SafeStepIsExactlyASuccessfulStep := by
  intro s
  calc SafeStep s
      ↔ s.fault = none ∧ s.pc.toNat ≤ 4094 ∧ ∃ t, Effect (nextInstr s) s.enterExecute t := by
        rw [exists_effect_iff, faultOf_enterExecute, SafeStep]
    _ ↔ ∃ t, s.fault = none ∧ s.pc.toNat ≤ 4094 ∧ Effect (nextInstr s) s.enterExecute t := by
        rw [exists_and_left, exists_and_left]
    _ ↔ ∃ t, step s = .next t := exists_congr fun t => cycleWith_next_iff.symm

end Sys2Proof.Machine

end

/-! ## Loading an image (rules R181 to R183) -/

section

namespace Sys2Proof.Machine

variable {s : State} {image : List Byte}

/-! ### Memory after a list of writes -/

theorem Memory.read_writeList_at {m : Memory} {bs : List Byte} {a k : Nat} (hm : m.wf = true)
    (ha : a + bs.length ≤ Config.memSize) (hk : k < bs.length) :
    bs[k]? = some ((m.writeList a bs).read (a + k)) := by
  rw [Memory.read_writeList hm ha, if_pos (by omega), Nat.add_sub_cancel_left, List.getD_eq_getElem _ _ hk,
    List.getElem?_eq_getElem hk]

theorem Memory.read_writeList_outside {m : Memory} {bs : List Byte} {a c : Nat} (hm : m.wf = true)
    (ha : a + bs.length ≤ Config.memSize) (hc : c < a ∨ a + bs.length ≤ c) :
    (m.writeList a bs).read c = m.read c := by
  rw [Memory.read_writeList hm ha, if_neg (by omega)]

/-! ### The branches of `load` -/

theorem loadImage_of_started (h : s.started = true) : loadImage image s = (.refused .loadAfterCycle, s) := by
  rw [loadImage, if_pos h]

theorem loadImage_of_too_large (h : s.started = false) (hlen : Config.maxImage < image.length) :
    loadImage image s = (.imageTooLarge, s) := by
  rw [loadImage, h, if_neg Bool.false_ne_true, if_pos hlen]

theorem loadImage_of_fits (h : s.started = false) (hlen : image.length ≤ Config.maxImage) :
    loadImage image s = (.success, s.setMem (s.mem.writeList Config.loadOffset image)) := by
  rw [loadImage, h, if_neg Bool.false_ne_true, if_neg (Nat.not_lt.2 hlen)]

/-- Settles O57, branch by branch; an image that fits ends at 4096 or below, so every byte is written. -/
theorem loadCopiesTheImageOrChangesNothing : Obligations.LoadCopiesTheImageOrChangesNothing := by
  refine fun image s => ⟨fun h => ⟨_, loadImage_of_started h⟩, loadImage_of_too_large,
    fun h hlen => ⟨_, loadImage_of_fits h hlen, (keepsBut_setMem s _).frame, fun hwf => ?_⟩⟩
  have hend : Config.loadOffset + image.length ≤ Config.memSize := Nat.add_le_add_left hlen 512
  exact ⟨fun k hk => Memory.read_writeList_at hwf hend hk,
    fun a ha => Memory.read_writeList_outside hwf hend ha⟩

end Sys2Proof.Machine

end

/-! ## No-ops to the end of memory, and the self-jump (rules R184, R185) -/

section

namespace Sys2Proof.Machine

variable {s : State} {n : Nat}

/-! ### Empty memory (rules R65, R184) -/

/-- Two zero bytes are a no-op. -/
theorem nextInstr_of_zero_bytes (h : ∀ a, s.mem.read a = 0#8) : nextInstr s = .nop 0x0000#16 := by
  rw [nextInstr, wordAt, h, h]
  rfl

/-- With no wait standing, the advance changes `pc` and `started` only. -/
theorem keepsBut_enterExecute_of_no_wait (h : s.kwait = false) :
    KeepsBut [.pc, .started] s s.enterExecute := by
  intro p hp
  cases p with
  | kwait => exact h.symm
  | pc | started => simp at hp
  | _ => rfl

/-- A run of one step more is the run and then one step. -/
theorem run_succ_of_run {M : Host.Core} {s t : M.State} (h : M.run n s = .next t) :
    M.run (n + 1) s = M.step t := by
  induction n generalizing s with
  | zero =>
    cases h
    rw [Host.Core.run]
    cases M.step t <;> rfl
  | succ n ih =>
    rw [Host.Core.run] at h ⊢
    cases hs : M.step s with
    | next u =>
      rw [hs] at h
      exact ih h
    | fault _ | refused _ =>
      rw [hs] at h
      cases h

/-- From reset, `n` steps take `pc` up by `2 * n` as long as they fetch inside memory. -/
theorem run_noOps_from_reset (hn : n ≤ 1792) : ∃ t : State, Sys2Proof.core.run n State.reset = .next t ∧
    t.pc.toNat = 512 + 2 * n ∧ KeepsBut [.pc, .started] State.reset t := by
  induction n with
  | zero => exact ⟨State.reset, rfl, rfl, keepsBut_refl _ _⟩
  | succ n ih =>
    obtain ⟨t, hrun, hpc, hkeep⟩ := ih (by omega)
    have hfetch : t.pc.toNat ≤ 4094 := by omega
    have hmem : t.mem = [] := hkeep .mem (by decide)
    have hnop : nextInstr t = .nop 0x0000#16 := nextInstr_of_zero_bytes fun a => by rw [hmem]; rfl
    have hstep : step t = .next t.enterExecute := step_of_effect (hkeep .fault (by decide)) hfetch hnop rfl
    refine ⟨t.enterExecute, (run_succ_of_run hrun).trans hstep, ?_,
      hkeep.trans (keepsBut_enterExecute_of_no_wait (hkeep .kwait (by decide)))⟩
    rw [toNat_pc_enterExecute hfetch]
    omega

/-- Settles O59: the 1792 no-ops leave `pc` at 4096, where the fetch faults. -/
theorem emptyMemoryRunsNoOpsToTheEnd : Obligations.EmptyMemoryRunsNoOpsToTheEnd := by
  constructor
  · intro n hn
    obtain ⟨t, hrun, hpc, hkeep⟩ := run_noOps_from_reset hn
    exact ⟨t, hrun, hpc, hkeep.frame⟩
  · obtain ⟨t, hrun, hpc, hkeep⟩ := run_noOps_from_reset le_rfl
    have hfault : t.fault = none := hkeep .fault (by decide)
    exact (run_succ_of_run hrun).trans (step_of_fetch_error hfault (fetch_error (by omega)))

/-! ### The self-jump (rule R185) -/

/-- Where a cycle has run and no wait stands, the advance changes `pc` only. -/
theorem enterExecute_setPc_self (hstarted : s.started = true) (hkwait : s.kwait = false) :
    s.enterExecute.setPc s.pc = s := by
  rw [State.enterExecute, State.setPc, ← hstarted, ← hkwait]

/-- Settles O60: the jump undoes the advance, the one change of the cycle. -/
theorem selfJumpChangesNothing : Obligations.SelfJumpChangesNothing := by
  intro s nnn hfault hstarted hkwait hpc htarget hword
  have hi : nextInstr s = .jp nnn := by
    rw [nextInstr, hword]
    exact decodeWith_encode (i := .jp nnn) rfl
  have hself : zextAddr nnn = s.pc := BitVec.eq_of_toNat_eq (by rw [toNat_zextAddr, htarget])
  refine step_of_effect hfault hpc hi ?_
  show s = s.enterExecute.setPc (zextAddr nnn)
  rw [hself, enterExecute_setPc_self hstarted hkwait]

end Sys2Proof.Machine

end
